-- ==== Sys2Proof/Word.lean ====
section
/-! DEFINITION. The bit-vector widths the spec names (`00_scope.md` R6, `30_encoding.md` R101). -/

namespace Sys2Proof

/-- A byte: one element of IBUF, OBUF or ADDR. -/
abbrev Byte := BitVec 8

/-- A 16-bit value: a host register access, a command word, the CRC register. -/
abbrev Half := BitVec 16

/-- A 5-bit group of a quantum, the value of one base-32 symbol. -/
abbrev Group5 := BitVec 5

/-- A quantum: the 40 bits that five bytes and eight symbols share (R101). -/
abbrev Quantum := BitVec 40

end Sys2Proof
end

