-- ==== Sys2Proof/Syntax.lean ====
section
/-! DEFINITION. The commands of `30_encoding.md` R92 (one constructor per row of the opcode table), the fields
of the one command format (R90), and the names a decoder rejects by (R94). -/

namespace Sys2Proof

/-- The eight legal commands (R92). A command word carries no operand but its codec select (R91), so no
constructor has an argument. -/
inductive Instr where
  /-- CRC16, word 0x0001. -/
  | crc16
  /-- CRCCHK, word 0x0002. -/
  | crcchk
  /-- DEC.STD, word 0x0003. -/
  | decStd
  /-- DEC.NDAU, word 0x0013. -/
  | decNdau
  /-- ENC.STD, word 0x0004. -/
  | encStd
  /-- ENC.NDAU, word 0x0014. -/
  | encNdau
  /-- VALIDATE, word 0x0005. -/
  | validate
  /-- CONSTRUCT, word 0x0006. -/
  | construct
  deriving DecidableEq, Repr

/-- The two codec instances (R99). -/
inductive Codec where
  | std
  | ndau
  deriving DecidableEq, Repr

/-- The fields of format C (R90): RSV `[15:5]`, CS `[4]`, OP `[3:0]`. -/
structure CommandFields where
  rsv : BitVec 11
  cs  : BitVec 1
  op  : BitVec 4
  deriving DecidableEq, Repr

/-- Why a word is no command (R94). Each is an illegal word: the machine answers it with E_ILLEGAL. -/
inductive DecodeReject where
  /-- A bit of `w[15:5]` is set. -/
  | reservedBitsSet
  /-- OP is 0 or 7 to 15. -/
  | undefinedOperation
  /-- CS is 1 with an OP that takes no codec. -/
  | codecSelectNotAllowed
  deriving DecidableEq, Repr

end Sys2Proof
end

