-- ==== Sys2Proof/WellFormed.lean ====
section
/-! DEFINITION. The checks on what is written down: the fields of a command word (`30_encoding.md` R90, R94)
and an alphabet (`40_base32_codec.md` R122, checked at design time). -/

namespace Sys2Proof

/-- RSV must be 0, "otherwise the word is illegal" (R90). -/
def CommandFields.reservedClear (f : CommandFields) : Bool := f.rsv == 0

/-- OP names one of the six operations (R92). -/
def CommandFields.operationDefined (f : CommandFields) : Bool :=
  decide (1 ≤ f.op.toNat ∧ f.op.toNat ≤ 6)

/-- CS "must be 0 in every other command" than DEC (OP 3) and ENC (OP 4) (R90). -/
def CommandFields.codecSelectAllowed (f : CommandFields) : Bool :=
  f.cs == 0 || f.op == 3 || f.op == 4

/-- The fields of a legal command word (R90, R94). -/
def CommandFields.wellFormed (f : CommandFields) : Bool :=
  f.reservedClear && f.operationDefined && f.codecSelectAllowed

/-- The fields of each command (R92). -/
def Instr.fields : Instr → CommandFields
  | .crc16     => { rsv := 0, cs := 0, op := 1 }
  | .crcchk    => { rsv := 0, cs := 0, op := 2 }
  | .decStd    => { rsv := 0, cs := 0, op := 3 }
  | .decNdau   => { rsv := 0, cs := 1, op := 3 }
  | .encStd    => { rsv := 0, cs := 0, op := 4 }
  | .encNdau   => { rsv := 0, cs := 1, op := 4 }
  | .validate  => { rsv := 0, cs := 0, op := 5 }
  | .construct => { rsv := 0, cs := 0, op := 6 }

/-- A command is well formed when its fields are. -/
def Instr.wellFormed (i : Instr) : Bool := i.fields.wellFormed

/-- An alphabet has exactly 32 symbols (R122, `IllegalAlphabet` otherwise). -/
def alphabetLengthOk (symbols : List Byte) : Bool := symbols.length == 32

/-- The symbols of an alphabet are distinct (R122: a duplicate makes the decode table ambiguous). -/
def alphabetDistinct (symbols : List Byte) : Bool := decide symbols.Nodup

/-- The pad symbol is in no alphabet (`30_encoding.md` R98). -/
def alphabetPadFree (padSymbol : Byte) (symbols : List Byte) : Bool := !symbols.contains padSymbol

/-- The design-time check of an alphabet (R122, R98). -/
def alphabetWellFormed (padSymbol : Byte) (symbols : List Byte) : Bool :=
  alphabetLengthOk symbols && alphabetDistinct symbols && alphabetPadFree padSymbol symbols

end Sys2Proof
end

