-- ==== Sys2Proof/Decode.lean ====
section
/-! DEFINITION. Decoding a command word, total on all 2^16 words and rejecting by name, and the encoder
(`30_encoding.md` R90, R92, R94). -/

namespace Sys2Proof

/-- The fields of a word (R90). -/
def commandFields (w : Half) : CommandFields :=
  { rsv := w.extractLsb' 5 11, cs := w.extractLsb' 4 1, op := w.extractLsb' 0 4 }

/-- The word of given fields: `RSV ‖ CS ‖ OP` (R90). -/
def fieldsWord (f : CommandFields) : Half := f.rsv ++ f.cs ++ f.op

/-- The command of an OP with CS = 0 (R92). -/
def decodeStdOp : Nat → Except DecodeReject Instr
  | 1 => .ok .crc16
  | 2 => .ok .crcchk
  | 3 => .ok .decStd
  | 4 => .ok .encStd
  | 5 => .ok .validate
  | 6 => .ok .construct
  | _ => .error .undefinedOperation

/-- The command of an OP with CS = 1 (R92): only DEC and ENC take a codec select. -/
def decodeNdauOp : Nat → Except DecodeReject Instr
  | 3 => .ok .decNdau
  | 4 => .ok .encNdau
  | 1 => .error .codecSelectNotAllowed
  | 2 => .error .codecSelectNotAllowed
  | 5 => .error .codecSelectNotAllowed
  | 6 => .error .codecSelectNotAllowed
  | _ => .error .undefinedOperation

/-- The command a 16-bit word encodes (R92), or why it encodes none (R94). -/
def decode (w : Half) : Except DecodeReject Instr :=
  let f := commandFields w
  if f.rsv ≠ 0 then .error .reservedBitsSet
  else if f.cs = 0 then decodeStdOp f.op.toNat
  else decodeNdauOp f.op.toNat

/-- The command word of a command (R92). -/
def encode (i : Instr) : Half := fieldsWord i.fields

/-- The value a host write of CMD carries for a table row of `nbits` bits `w`. A register access moves 16 bits
(`10_state.md` R23), so a wider number would lose its upper bits: log entry 10. -/
def commandWord (nbits w : Nat) : Half := BitVec.ofNat 16 (w % 2 ^ nbits)

/-- The command the decoder reads from a table row of `nbits` bits `w`. -/
def decodeTableWord (nbits w : Nat) : Option Instr :=
  match decode (commandWord nbits w) with
  | .ok i => some i
  | .error _ => none

end Sys2Proof
end

