-- ==== Sys2Proof/Config.lean ====
section
/-! DEFINITION. What an implementation fixes (the capacities of `00_scope.md` R5) and the one free value of the
model. The constants whose value a test could show wrong (alphabets, CRC parameters, Kind tags) stand in the
family files under Machine/. -/

namespace Sys2Proof.Config

/-- The free values: draw number `n` of a byte that no rule fixes (`20_memory.md` R76). It has no body, so no
proof can learn a value of it. DESIGN CHOICE, log entry 1. -/
opaque freeByte : Nat → Byte

/-- IBUF_SIZE (R5). -/
def ibufSize : Nat := 256

/-- ILEN_MAX (R5). -/
def ilenMax : Nat := 255

/-- OBUF_SIZE (R5): `encodedLen(255)`. -/
def obufSize : Nat := 408

/-- ADDR_SIZE (R5). -/
def addrSize : Nat := 48

end Sys2Proof.Config
end

