-- ==== Sys2Proof/Machine/State.lean ====
section
/-! DEFINITION. The state of the block (`10_state.md` R20 to R45), the transactions of its host
(`20_memory.md` R62 to R67, `70_reset_and_hazards.md` R240), and the state after reset (R43). -/

namespace Sys2Proof.Machine

open Sys2Proof

/-- A byte buffer, as (index, byte) pairs with indices strictly rising (`Memory.wf` in Ops.lean). An index that
is not listed holds no specified byte: reading it is a free draw (R76, log entries 1 and 7). -/
abbrev Memory := List Host.Cell

/-- The registers of the map R23, by name. -/
inductive Reg where
  | cmd | ilen | ckexp | status | result | erroff | errbyte | crc | olen | kind | akind
  deriving DecidableEq, Repr

/-- The Kinds of an address (`30_encoding.md` R100). -/
inductive Kind where
  | user | ndau | endowment | exchange | bpc | marketMaker
  deriving DecidableEq, Repr

/-- The typed failures of a command (`60_exceptions.md` R211). They are results, not traps: `raise` in Ops.lean
records them in the result group and the machine goes on. -/
inductive Failure where
  /-- E_PREFIX, VALIDATE and CONSTRUCT step 2. -/
  | badPrefix
  /-- E_LENGTH, VALIDATE and CONSTRUCT step 3. -/
  | badLength
  /-- E_KIND, VALIDATE and CONSTRUCT step 4, with the byte rejected. -/
  | badKind (b : Byte)
  /-- E_CORRUPT, DEC and step 5 of VALIDATE and CONSTRUCT, with the offset. -/
  | corrupt (off : Nat)
  /-- E_CHECKSUM, VALIDATE and CONSTRUCT step 7. -/
  | badChecksum
  /-- E_ILLEGAL, a word that is no command. -/
  | illegalCommand
  deriving DecidableEq, Repr

/-- One transaction of the host (R62 to R67, R240). The argument types are the index widths of R60. -/
inductive HostTx where
  | reset
  | readReg   (r : BitVec 4)
  | writeReg  (r : BitVec 4) (v : Half)
  | writeIbuf (i : BitVec 8) (b : Byte)
  | readIbuf  (i : BitVec 8)
  | readObuf  (i : BitVec 9)
  | readAddr  (i : BitVec 6)
  deriving DecidableEq, Repr

/-- What a transaction returned to the host: a read of a register 16 bits, a read of a buffer one byte. -/
inductive HostReply where
  | nothing
  | half (v : Half)
  | byte (b : Byte)
  deriving DecidableEq, Repr

/-- Why the machine would stop with a fault. It has NO constructor: "no host transaction can hang or fault the
block" (`93_implementation_defined.md` Part 1, `60_exceptions.md` R210). Safe: log entry 13. -/
inductive Fault where
  deriving DecidableEq, Repr

/-- Why the model would give an instruction no meaning. -/
inductive Refusal where
  /-- Raised by an arm of `exec` for an instruction that has no meaning yet; no arm raises it. Safe. -/
  | notModelled (mnemonic : String)
  deriving DecidableEq, Repr

/-- The whole state (R20), and three fields of the model's own. STATUS and AKIND have no storage (R27, R35). -/
structure State where
  /-- CMD (R24): the last word the host wrote. -/
  cmd     : Half
  /-- ILEN (R25). -/
  ilen    : BitVec 8
  /-- CKEXP (R26). -/
  ckexp   : Half
  /-- RESULT (R28). -/
  result  : BitVec 4
  /-- ERROFF (R30). -/
  erroff  : Half
  /-- ERRBYTE (R31). -/
  errbyte : Byte
  /-- CRC (R32). -/
  crc     : Half
  /-- OLEN (R33). -/
  olen    : BitVec 9
  /-- KIND (R34). -/
  kind    : Byte
  /-- The flag MATCH (R29). -/
  matched : Bool
  /-- The flag AVALID (R29). -/
  avalid  : Bool
  /-- IBUF (R37): the bytes written since reset. -/
  ibuf    : Memory
  /-- OBUF (R38): the bytes the last command emitted. -/
  obuf    : Memory
  /-- ADDR (R39): the held address. -/
  addr    : Memory
  /-- The model's own: the transactions the host will issue, oldest first. DESIGN CHOICE, log entry 3. -/
  pending : List HostTx
  /-- The model's own: what the last transaction returned. DESIGN CHOICE, log entry 4. -/
  reply   : HostReply
  /-- The model's own: how many free bytes have been drawn. DESIGN CHOICE, log entry 2. -/
  draws   : Nat
  deriving DecidableEq, Repr

/-- The state right after reset (R43, R240). The last three fields are the model's own (log entries 2 to 4). -/
def State.reset : State where
  cmd     := 0x0000
  ilen    := 0x00
  ckexp   := 0x0000
  result  := 0
  erroff  := 0xFFFF
  errbyte := 0x00
  crc     := 0x1D0F
  olen    := 0
  kind    := 0x00
  matched := false
  avalid  := false
  ibuf    := []
  obuf    := []
  addr    := []
  pending := []
  reply   := .nothing
  draws   := 0

end Sys2Proof.Machine
end

