-- ==== Sys2Proof/Machine/Flags.lean ====
section
/-! DEFINITION. The flags of `10_state.md` R27 and R29 and the STATUS view of them. -/

namespace Sys2Proof.Machine

open Sys2Proof

/-- OK: "1 when RESULT = 0", derived (R27). -/
def okFlag (s : State) : Bool := s.result == 0

/-- STATUS (R27): bit 0 OK, bit 1 MATCH, bit 2 AVALID, the other bits read as 0. -/
def statusView (s : State) : Half :=
  (0 : BitVec 13) ++ BitVec.ofBool s.avalid ++ BitVec.ofBool s.matched ++ BitVec.ofBool (okFlag s)

/-- MATCH written with the outcome of a comparison (R29). -/
def setMatch (b : Bool) (s : State) : State := { s with matched := b }

end Sys2Proof.Machine
end

