-- ==== Sys2Proof/Machine/Ops.lean ====
section
/-! DEFINITION. The operations every meaning shares: reading and writing a buffer, the free draw of an
unspecified byte, the prologue of a command, emitting bytes, recording a failure, the register map, reset. -/

namespace Sys2Proof.Machine

open Sys2Proof

/-! ## Buffers -/

/-- The byte an index holds that is not listed: none, so that reading it is a free draw (R76, log entry 7). -/
def Memory.unlisted : Option Byte := none

/-- The specified byte at an index, if there is one. -/
def Memory.read : Memory → Nat → Option Byte
  | [], _ => Memory.unlisted
  | (a, b) :: m, i => if a = i then some b else Memory.read m i

/-- One byte written (R64); the indices stay strictly rising. -/
def Memory.write : Memory → Nat → Byte → Memory
  | [], i, v => [(i, v)]
  | (a, b) :: m, i, v =>
    if i < a then (i, v) :: (a, b) :: m
    else if i = a then (i, v) :: m
    else (a, b) :: Memory.write m i v

/-- A byte sequence written to consecutive indices from `i` on. -/
def Memory.writeRun (m : Memory) : Nat → List Byte → Memory
  | _, [] => m
  | i, v :: vs => (Memory.writeRun m (i + 1) vs).write i v

/-- The `n` bytes from index `i` on, if all of them are specified. -/
def Memory.readRun (m : Memory) : Nat → Nat → Option (List Byte)
  | _, 0 => some []
  | i, n + 1 =>
    match m.read i, Memory.readRun m (i + 1) n with
    | some b, some bs => some (b :: bs)
    | _, _ => none

/-- The canonical form of a buffer: indices strictly rising. -/
abbrev Memory.wf (m : Memory) : Prop := m.Pairwise (fun x y => x.1 < y.1)

/-- Every listed index is below the buffer's capacity. -/
abbrev Memory.within (m : Memory) (capacity : Nat) : Prop := ∀ c ∈ m, c.1 < capacity

/-! ## Free draws (R76) -/

/-- A byte of a buffer and the draw counter after it: the specified byte, or a fresh free value (R65, R76). -/
def fetchByte (m : Memory) (i k : Nat) : Byte × Nat :=
  match m.read i with
  | some b => (b, k)
  | none => (Config.freeByte k, k + 1)

/-- The `n` bytes from index `i` on, one fresh free value for each unspecified one, drawn in index order
(`93_implementation_defined.md` U5, log entry 12). -/
def fetchRun (m : Memory) : Nat → Nat → Nat → List Byte × Nat
  | _, 0, k => ([], k)
  | i, n + 1, k =>
    let head := fetchByte m i k
    let tail := fetchRun m (i + 1) n head.2
    (head.1 :: tail.1, tail.2)

/-- A fresh free byte, for a read that no rule gives a value (R61, R66, R67). -/
def drawFree (k : Nat) : Byte × Nat := (Config.freeByte k, k + 1)

/-! ## The parts of a command -/

/-- The prologue of every command: the result group goes neutral (R45, R93). OLEN is 0 after it, so no byte of
OBUF is specified (R38, log entry 6). -/
def prologue (s : State) : State :=
  { s with
    result := 0, erroff := 0xFFFF, errbyte := 0x00, olen := 0, kind := 0x00, matched := false, obuf := [] }

/-- The word of a CMD write is stored before the command runs (R24, R93). -/
def latchCommand (w : Half) (s : State) : State := { s with cmd := w }

/-- CRC written with a checksum that was computed (R32). -/
def setCrc (v : Half) (s : State) : State := { s with crc := v }

/-- `emit` (`00_scope.md` R7): the bytes go to OBUF from index 0, their number to OLEN. -/
def emit (bs : List Byte) (s : State) : State :=
  { s with obuf := s.obuf.writeRun 0 bs, olen := BitVec.ofNat 9 bs.length }

/-- The code of a failure (`60_exceptions.md` R211). -/
def Failure.code : Failure → BitVec 4
  | .badPrefix => 1
  | .badLength => 2
  | .badKind _ => 3
  | .corrupt _ => 4
  | .badChecksum => 5
  | .illegalCommand => 6

/-- `raise` (R7, R212): what a failure writes, after the prologue. Control goes nowhere; nothing is saved. It is
this block's one shared operation for ending a command with a failure; there is no return from it (R218). -/
def raise (f : Failure) (s : State) : State :=
  match f with
  | .badKind b => { s with result := f.code, errbyte := b }
  | .corrupt off => { s with result := f.code, erroff := BitVec.ofNat 16 off }
  | .badPrefix => { s with result := f.code }
  | .badLength => { s with result := f.code }
  | .badChecksum => { s with result := f.code }
  | .illegalCommand => { s with result := f.code }

/-- An illegal command word: the prologue, then E_ILLEGAL (R93, R94). -/
def runIllegal (s : State) : State := raise .illegalCommand (prologue s)

/-- ADDR and AVALID written by a CONSTRUCT that succeeds (R39, `42_address.md` R186). -/
def holdAddress (bs : List Byte) (s : State) : State :=
  { s with addr := s.addr.writeRun 0 bs, avalid := true }

/-! ## The register map (R23) -/

/-- The register of a number; none for the reserved numbers 11 to 15 (R23, R36). -/
def regOfNumber (r : BitVec 4) : Option Reg :=
  match r.toNat with
  | 0 => some .cmd
  | 1 => some .ilen
  | 2 => some .ckexp
  | 3 => some .status
  | 4 => some .result
  | 5 => some .erroff
  | 6 => some .errbyte
  | 7 => some .crc
  | 8 => some .olen
  | 9 => some .kind
  | 10 => some .akind
  | _ => none

/-- The number of a register (R23). -/
def numberOfReg : Reg → BitVec 4
  | .cmd => 0
  | .ilen => 1
  | .ckexp => 2
  | .status => 3
  | .result => 4
  | .erroff => 5
  | .errbyte => 6
  | .crc => 7
  | .olen => 8
  | .kind => 9
  | .akind => 10

/-- AKIND and the draw counter after it: `ADDR[2]` when AVALID is 1, and 0x00 when it is 0 (R35). With AVALID 1
and no byte listed at index 2, which no run reaches, the byte is a free draw (log entry 9). -/
def akindView (s : State) : Byte × Nat :=
  if s.avalid then fetchByte s.addr 2 s.draws else (0x00, s.draws)

/-- The 16 bits a read of a register returns, narrower registers zero-extended (R23, R62). -/
def readReg (s : State) : Reg → Half
  | .cmd => s.cmd
  | .ilen => s.ilen.setWidth 16
  | .ckexp => s.ckexp
  | .status => statusView s
  | .result => s.result.setWidth 16
  | .erroff => s.erroff
  | .errbyte => s.errbyte.setWidth 16
  | .crc => s.crc
  | .olen => s.olen.setWidth 16
  | .kind => s.kind.setWidth 16
  | .akind => (akindView s).1.setWidth 16

/-- The draw counter after a read of a register: only AKIND can draw (log entry 9). -/
def drawsAfterReadReg (s : State) : Reg → Nat
  | .akind => (akindView s).2
  | _ => s.draws

/-- A host write of a register other than CMD: ILEN takes the low 8 bits, CKEXP all 16, every other register
and every reserved number ignores it (R62, R63, R36). -/
def writeReg (r : BitVec 4) (v : Half) (s : State) : State :=
  match regOfNumber r with
  | some .ilen => { s with ilen := v.setWidth 8 }
  | some .ckexp => { s with ckexp := v }
  | _ => s

/-! ## Host transactions other than a write of CMD -/

/-- HostReadReg (R62): a defined register zero-extended, 0x0000 for a reserved number (R36). -/
def hostReadReg (r : BitVec 4) (s : State) : State :=
  match regOfNumber r with
  | some reg => { s with reply := .half (readReg s reg), draws := drawsAfterReadReg s reg }
  | none => { s with reply := .half 0x0000 }

/-- HostWriteIBUF (R64). -/
def hostWriteIbuf (i : BitVec 8) (b : Byte) (s : State) : State :=
  { s with ibuf := s.ibuf.write i.toNat b }

/-- A byte and a draw counter, returned to the host. -/
def returnByte (x : Byte × Nat) (s : State) : State := { s with reply := .byte x.1, draws := x.2 }

/-- HostReadIBUF (R65): the byte last written there, or an unspecified value. -/
def hostReadIbuf (i : BitVec 8) (s : State) : State :=
  returnByte (fetchByte s.ibuf i.toNat s.draws) s

/-- HostReadOBUF (R66): specified below OLEN only. -/
def hostReadObuf (i : BitVec 9) (s : State) : State :=
  returnByte (if i < s.olen then fetchByte s.obuf i.toNat s.draws else drawFree s.draws) s

/-- HostReadADDR (R67): specified for `i < 48` while AVALID is 1 only. -/
def hostReadAddr (i : BitVec 6) (s : State) : State :=
  returnByte
    (if i.toNat < Config.addrSize ∧ s.avalid = true then fetchByte s.addr i.toNat s.draws else drawFree s.draws) s

/-- Reset (`70_reset_and_hazards.md` R240): every register and flag at its value of R43, the buffers
unspecified. The host's transactions still to come stay, and later free draws stay fresh (log entry 2). -/
def resetBlock (s : State) : State := { State.reset with pending := s.pending, draws := s.draws }

end Sys2Proof.Machine
end

