-- ==== Sys2Proof/Machine/Operands.lean ====
section
/-! DEFINITION. The operands of a command (`30_encoding.md` R91): the input sequence and the expected checksum.
No command word carries an operand of its own. -/

namespace Sys2Proof.Machine

open Sys2Proof

/-- `in = IBUF[0..ILEN)` (R91, `10_state.md` R25), each unwritten byte a fresh free value (U5). -/
def inputBytes (s : State) : List Byte := (fetchRun s.ibuf 0 s.ilen.toNat s.draws).1

/-- The draw counter after a command has read its input. -/
def drawsAfterInput (s : State) : Nat := (fetchRun s.ibuf 0 s.ilen.toNat s.draws).2

/-- The free values of the unwritten input bytes are used up, once each (U5). -/
def consumeInput (s : State) : State := { s with draws := drawsAfterInput s }

/-- How every legal command begins: the result group neutral, the input read (R93). -/
def beginCommand (s : State) : State := consumeInput (prologue s)

/-- The high and the low byte of a 16-bit value, most significant first (`20_memory.md` R68 (a)). -/
def bytesOfHalf (v : Half) : List Byte := [v.extractLsb' 8 8, v.extractLsb' 0 8]

/-- The expected checksum of CRCCHK: `CKEXP[15:8]` first (`10_state.md` R26). -/
def expectedChecksum (s : State) : List Byte := bytesOfHalf s.ckexp

end Sys2Proof.Machine
end

