-- ==== Sys2Proof/Machine/Base32Codec.lean ====
section
/-! DEFINITION. The family of `40_base32_codec.md`: folding, the alphabets and decode tables, the encoder, the
decoder with its six corruption cases, and the meanings of ENC.STD, ENC.NDAU, DEC.STD and DEC.NDAU. -/

namespace Sys2Proof.Machine

open Sys2Proof

/-! ## Folding, alphabets, decode tables -/

/-- `lower(b)` (R120): `A` to `Z` only; every other byte is left as it is (D10). -/
def lower (b : Byte) : Byte := if 0x41 ≤ b ∧ b ≤ 0x5A then b + 0x20 else b

/-- `lower(s)` (R120). -/
def lowerAll (bs : List Byte) : List Byte := bs.map lower

/-- The pad symbol `=` of both codecs (`30_encoding.md` R98). -/
def pad : Byte := 0x3D

/-- The alphabets (`30_encoding.md` R96, R97): the symbol of value `v` stands at position `v`. -/
def alphabet : Codec → List Byte
  | .std =>
    [0x41, 0x42, 0x43, 0x44, 0x45, 0x46, 0x47, 0x48, 0x49, 0x4A, 0x4B, 0x4C, 0x4D, 0x4E, 0x4F, 0x50,
     0x51, 0x52, 0x53, 0x54, 0x55, 0x56, 0x57, 0x58, 0x59, 0x5A, 0x32, 0x33, 0x34, 0x35, 0x36, 0x37]
  | .ndau =>
    [0x61, 0x62, 0x63, 0x64, 0x65, 0x66, 0x67, 0x68, 0x69, 0x6A, 0x6B, 0x6D, 0x6E, 0x70, 0x71, 0x72,
     0x73, 0x74, 0x75, 0x76, 0x77, 0x78, 0x79, 0x7A, 0x32, 0x33, 0x34, 0x35, 0x36, 0x37, 0x38, 0x39]

/-- The case-folding flag of a codec (`30_encoding.md` R99). -/
def folds : Codec → Bool
  | .std => false
  | .ndau => true

/-- The input of a decoder after folding, if the codec folds (R129). -/
def foldInput (c : Codec) (bs : List Byte) : List Byte := if folds c then lowerAll bs else bs

/-- `sym_c(v)` (`30_encoding.md` R96, R97). -/
def sym (c : Codec) (v : Group5) : Byte := (alphabet c).getD v.toNat 0x00

/-- The value of a symbol: its position, counted from `v`, in an alphabet. -/
def valueIn : List Byte → Group5 → Byte → Option Group5
  | [], _, _ => none
  | a :: as, v, b => if a = b then some v else valueIn as (v + 1) b

/-- `LUT_c(b)` (R121): the value of a symbol, `none` for INV (U13). -/
def lut (c : Codec) (b : Byte) : Option Group5 := valueIn (alphabet c) 0 b

/-- The second loop of R121: `LUT(sym(v)) <- v`, for the symbols from value `v` on. -/
def fillTable (t : List (Option Group5)) : Group5 → List Byte → List (Option Group5)
  | _, [] => t
  | v, a :: as => fillTable (t.set a.toNat (some v)) (v + 1) as

/-- The decode table of an alphabet as R121 builds it: 256 entries, all INV, then each symbol's value. -/
def decodeTable (symbols : List Byte) : List (Option Group5) :=
  fillTable (List.replicate 256 none) 0 symbols

/-! ## Lengths -/

/-- `encodedLen(n)` (R123): `ceil(n/5) * 8`. -/
def encodedLen (n : Nat) : Nat := (n + 4) / 5 * 8

/-- `decodedLen(n)` (R124): an upper bound, returned by no command. -/
def decodedLen (n : Nat) : Nat := n / 8 * 5

/-! ## Quanta (`30_encoding.md` R101) -/

/-- The quantum of up to five bytes, "zero-padded on the low end". -/
def quantumOfBytes (bs : List Byte) : Quantum :=
  bs.getD 0 0 ++ bs.getD 1 0 ++ bs.getD 2 0 ++ bs.getD 3 0 ++ bs.getD 4 0

/-- The quantum of up to eight groups, missing groups 0 (R129). -/
def quantumOfGroups (gs : List Group5) : Quantum :=
  gs.getD 0 0 ++ gs.getD 1 0 ++ gs.getD 2 0 ++ gs.getD 3 0 ++
    gs.getD 4 0 ++ gs.getD 5 0 ++ gs.getD 6 0 ++ gs.getD 7 0

/-- Byte `m` of a quantum: bits `[39-8m : 32-8m]`. -/
def byteOf (q : Quantum) (m : Nat) : Byte := q.extractLsb' (32 - 8 * m) 8

/-- Group5 `p` of a quantum: bits `[39-5p : 35-5p]`. -/
def groupOf (q : Quantum) (p : Nat) : Group5 := q.extractLsb' (35 - 5 * p) 5

/-- The five bytes of a quantum. -/
def bytesOf (q : Quantum) : List Byte := [byteOf q 0, byteOf q 1, byteOf q 2, byteOf q 3, byteOf q 4]

/-- How many symbols of a quantum of `k` bytes are real: `ceil(8k/5)` (R102). -/
def realSymbols (k : Nat) : Nat := (8 * k + 4) / 5

/-! ## Encoding (R125) -/

/-- Symbol `p` of a quantum with `real` real symbols. -/
def quantumSymbol (c : Codec) (q : Quantum) (real p : Nat) : Byte :=
  if p < real then sym c (groupOf q p) else pad

/-- The eight symbols of a quantum of 1 to 5 bytes. -/
def encodeQuantum (c : Codec) (bs : List Byte) : List Byte :=
  [0, 1, 2, 3, 4, 5, 6, 7].map (quantumSymbol c (quantumOfBytes bs) (realSymbols bs.length))

/-- `encode_c(bs)` (R125): five bytes at a time while five remain, then the short group, if there is one. -/
def encodeBytes (c : Codec) : List Byte → List Byte
  | [] => []
  | b0 :: b1 :: b2 :: b3 :: b4 :: rest => encodeQuantum c [b0, b1, b2, b3, b4] ++ encodeBytes c rest
  | short => encodeQuantum c short

/-! ## Decoding (R129) -/

/-- The bytes that `dlen` leading groups determine: `floor(5*dlen/8)` of the quantum's five (R101). -/
def quantumBytes (gs : List Group5) (dlen : Nat) : List Byte :=
  (bytesOf (quantumOfGroups gs)).take (5 * dlen / 8)

/-- The padding run after a terminating pad at index `padIndex`, `need` pads still wanted: `none` if it is complete
and the input ends with it, else the offset of case E2 (`n`), E3 or E4 (`padIndex`) (R129, R130). -/
def paddingFault (n padIndex : Nat) : Nat → List Byte → Option Nat
  | 0, [] => none
  | 0, _ :: _ => some padIndex
  | _ + 1, [] => some n
  | need + 1, b :: rest => if b = pad then paddingFault n padIndex need rest else some padIndex

/-- A quantum of `gs.length` real symbols, terminated by the pad at index `padIndex` and followed by `rest`: cases
E2 to E5, or its bytes (R129 to R132). -/
def closePadded (n padIndex : Nat) (gs : List Group5) (rest : List Byte) : Except Nat (List Byte) :=
  match paddingFault n padIndex (7 - gs.length) rest with
  | some off => .error off
  | none =>
    if gs.length = 3 ∨ gs.length = 6 then .error padIndex
    else .ok (quantumBytes gs gs.length)

/-- The termination test (R131): a pad at position `j >= 2` with fewer than 8 symbols after it. -/
def terminates (b : Byte) (j remaining : Nat) : Bool := b == pad && decide (2 ≤ j) && decide (remaining < 8)

/-- The scan of R129 over the symbols from index `i` on of an input of length `n`; `gs` are the groups of the
quantum begun, so `gs.length` is the position `j` in it. A fault is its offset (R130). -/
def scan (c : Codec) (n : Nat) : Nat → List Group5 → List Byte → Except Nat (List Byte)
  | _, gs, [] => if gs.length = 0 then .ok [] else .error n
  | i, gs, b :: rest =>
    if terminates b gs.length rest.length then closePadded n i gs rest
    else
      match lut c b with
      | none => .error i
      | some v =>
        if gs.length = 7 then
          match scan c n (i + 1) [] rest with
          | .error off => .error off
          | .ok out => .ok (quantumBytes (gs ++ [v]) 8 ++ out)
        else scan c n (i + 1) (gs ++ [v]) rest

/-- `decode_c(s0)` (R129): the bytes, or the offset of the first corruption met. -/
def decodeSymbols (c : Codec) (s0 : List Byte) : Except Nat (List Byte) :=
  scan c s0.length 0 [] (foldInput c s0)

/-! ## Meanings -/

/-- ENC with a codec (R127, R128). -/
def runEncode (c : Codec) (s : State) : State := emit (encodeBytes c (inputBytes s)) (beginCommand s)

/-- DEC with a codec (R135, R136). -/
def runDecode (c : Codec) (s : State) : State :=
  match decodeSymbols c (inputBytes s) with
  | .error off => raise (.corrupt off) (beginCommand s)
  | .ok bs => emit bs (beginCommand s)

/-- ENC.STD (R127). -/
def execEncStd (s : State) : Host.Outcome State Fault Refusal := .next (runEncode .std s)

/-- ENC.NDAU (R128). -/
def execEncNdau (s : State) : Host.Outcome State Fault Refusal := .next (runEncode .ndau s)

/-- DEC.STD (R135). -/
def execDecStd (s : State) : Host.Outcome State Fault Refusal := .next (runDecode .std s)

/-- DEC.NDAU (R136). -/
def execDecNdau (s : State) : Host.Outcome State Fault Refusal := .next (runDecode .ndau s)

end Sys2Proof.Machine
end

