-- ==== Sys2Proof/Machine/Checksum16.lean ====
section
/-! DEFINITION. The family of `41_checksum16.md`: `crc16`, `checksum16`, `check`, a table engine, and the meanings of
CRC16 and CRCCHK. -/

namespace Sys2Proof.Machine

open Sys2Proof

/-- CRC_INIT (`00_scope.md` R5). -/
def crcInit : Half := 0x1D0F

/-- CRC_POLY (R5), the x^16 term implied. -/
def crcPoly : Half := 0x1021

/-- One shift step (R160). -/
def crcShift (reg : Half) : Half :=
  if reg.msb then (reg <<< 1) ^^^ crcPoly else reg <<< 1

/-- `n` shift steps. -/
def crcShifts : Nat → Half → Half
  | 0, reg => reg
  | n + 1, reg => crcShifts n (crcShift reg)

/-- One byte: combined at the top of the register, then eight shift steps (R160). -/
def crcByte (reg : Half) (b : Byte) : Half := crcShifts 8 (reg ^^^ (b.setWidth 16 <<< 8))

/-- The register after a byte sequence, from a given register. -/
def crcRun : Half → List Byte → Half
  | reg, [] => reg
  | reg, b :: bs => crcRun (crcByte reg b) bs

/-- `crc16(bs)` (R160). The procedure is what the parameter names conventionally mean (G1, log entry 11). -/
def crc16 (bs : List Byte) : Half := crcRun crcInit bs

/-- `checksum16(bs)`: most significant byte first (R162). -/
def checksum16 (bs : List Byte) : List Byte := bytesOfHalf (crc16 bs)

/-- `check(bs, e)`: an exact byte comparison (R163). -/
def check (bs e : List Byte) : Bool := decide (checksum16 bs = e)

/-- Entry `i` of the table of R164: the register after eight shift steps from `i << 8`. -/
def crcTable (i : Byte) : Half := crcShifts 8 (i.setWidth 16 <<< 8)

/-- One byte of a table-driven engine (R164). -/
def crcTableByte (reg : Half) (b : Byte) : Half := (reg <<< 8) ^^^ crcTable (reg.extractLsb' 8 8 ^^^ b)

/-- A table-driven engine (R164): an implementation alternative, with no visibility of its own (U14). -/
def crcTableRun : Half → List Byte → Half
  | reg, [] => reg
  | reg, b :: bs => crcTableRun (crcTableByte reg b) bs

/-- CRC16 (R165): CRC gets `crc16(in)`, its two bytes are emitted. -/
def execCrc16 (s : State) : Host.Outcome State Fault Refusal :=
  let bs := inputBytes s
  .next (emit (checksum16 bs) (setCrc (crc16 bs) (beginCommand s)))

/-- CRCCHK (R166): CRC gets `crc16(in)`, MATCH says whether it equals CKEXP. A mismatch is no failure. -/
def execCrcchk (s : State) : Host.Outcome State Fault Refusal :=
  let bs := inputBytes s
  .next (setMatch (check bs (expectedChecksum s)) (setCrc (crc16 bs) (beginCommand s)))

end Sys2Proof.Machine
end

