-- ==== Sys2Proof/Machine/Address.lean ====
section
/-! DEFINITION. The family of `42_address.md`: Kinds, the seven-step validator, the held address, and the meanings
of VALIDATE and CONSTRUCT. -/

namespace Sys2Proof.Machine

open Sys2Proof

/-! ## Kinds -/

/-- `parseKind(b)` (R180): none stands for `UnknownKind(b)`. -/
def parseKind (b : Byte) : Option Kind :=
  if b = 0x61 then some .user
  else if b = 0x6E then some .ndau
  else if b = 0x65 then some .endowment
  else if b = 0x78 then some .exchange
  else if b = 0x62 then some .bpc
  else if b = 0x6D then some .marketMaker
  else none

/-- `kindByte(k)` (R181, `30_encoding.md` R100). -/
def kindByte : Kind → Byte
  | .user => 0x61
  | .ndau => 0x6E
  | .endowment => 0x65
  | .exchange => 0x78
  | .bpc => 0x62
  | .marketMaker => 0x6D

/-! ## The validator (R182) -/

/-- Step 2: the sequence begins with `nd`; one shorter than 2 does not (D28). -/
def hasPrefix (bs : List Byte) : Bool := decide (bs.take 2 = [0x6E, 0x64])

/-- Steps 1 to 5: the Kind and the decoded bytes, or the first failure. -/
def decodeCandidate (s0 : List Byte) : Except Failure (Kind × List Byte) :=
  let s := lowerAll s0
  if hasPrefix s = false then .error .badPrefix
  else if s.length ≠ Config.addrSize then .error .badLength
  else
    match parseKind (s.getD 2 0x00) with
    | none => .error (.badKind (s.getD 2 0x00))
    | some k =>
      match decodeSymbols .ndau s with
      | .error off => .error (.corrupt off)
      | .ok d => .ok (k, d)

/-- Step 6: all decoded bytes but the last two. -/
def payload (d : List Byte) : List Byte := d.take (d.length - 2)

/-- Step 6: the last two decoded bytes. -/
def suffix (d : List Byte) : List Byte := d.drop (d.length - 2)

/-- Step 7 (R183). -/
def suffixOk (d : List Byte) : Bool := check (payload d) (suffix d)

/-- Step 7 by the residue (R167, R183): an alternative with the same result. -/
def residueOk (d : List Byte) : Bool := decide (crc16 d = 0x0000)

/-- `validate(s0)` (R182): the Kind, or the first failure in step order. -/
def validate (s0 : List Byte) : Except Failure Kind :=
  match decodeCandidate s0 with
  | .error f => .error f
  | .ok (k, d) => if suffixOk d then .ok k else .error .badChecksum

/-! ## Meanings -/

/-- The steps VALIDATE and CONSTRUCT share (R184), on a candidate, from the state `s` a command begins in. CRC is
written exactly when step 7 is reached. -/
def runValidate (candidate : List Byte) (s : State) : State :=
  match decodeCandidate candidate with
  | .error f => raise f s
  | .ok (k, d) =>
    if suffixOk d then { setMatch true (setCrc (crc16 (payload d)) s) with kind := kindByte k }
    else raise .badChecksum (setCrc (crc16 (payload d)) s)

/-- VALIDATE (R184). -/
def execValidate (s : State) : Host.Outcome State Fault Refusal :=
  .next (runValidate (inputBytes s) (beginCommand s))

/-- CONSTRUCT (R186): the steps of VALIDATE, then "if RESULT = 0" the lower-cased candidate is held. -/
def execConstruct (s : State) : Host.Outcome State Fault Refusal :=
  let t := runValidate (inputBytes s) (beginCommand s)
  if t.result = 0 then .next (holdAddress (lowerAll (inputBytes s)) t) else .next t

/-! ## The held address (R187) -/

/-- `toString()` (R187): the 48 bytes of ADDR while AVALID is 1. -/
def heldAddress (s : State) : Option (List Byte) :=
  if s.avalid then s.addr.readRun 0 Config.addrSize else none

/-- `kind()` (R187): parsed again from the byte at offset 2 of the held address. -/
def heldKind (s : State) : Option Kind :=
  match heldAddress s with
  | some bs => parseKind (bs.getD 2 0x00)
  | none => none

end Sys2Proof.Machine
end

