-- ==== Sys2Proof/Machine/Dispatch.lean ====
section
/-! DEFINITION. One arm per command: each calls its meaning. -/

namespace Sys2Proof.Machine

open Sys2Proof

def exec (i : Instr) (s : State) : Host.Outcome State Fault Refusal :=
  match i with
  | .crc16 => Sys2Proof.Machine.execCrc16 s
  | .crcchk => Sys2Proof.Machine.execCrcchk s
  | .decStd => Sys2Proof.Machine.execDecStd s
  | .decNdau => Sys2Proof.Machine.execDecNdau s
  | .encStd => Sys2Proof.Machine.execEncStd s
  | .encNdau => Sys2Proof.Machine.execEncNdau s
  | .validate => Sys2Proof.Machine.execValidate s
  | .construct => Sys2Proof.Machine.execConstruct s

end Sys2Proof.Machine
end

