-- ==== Sys2Proof/Machine/HostPort.lean ====
section
/-! DEFINITION. One host transaction (`20_memory.md` R62 to R67, `70_reset_and_hazards.md` R240), the write of CMD
with the whole command it starts among them (`30_encoding.md` R93, R245). -/

namespace Sys2Proof.Machine

open Sys2Proof

/-- A write of CMD (R24, R93): the word is stored, and the command it encodes runs; a word that is no command
ends with E_ILLEGAL (R94). -/
def startCommand (w : Half) (s : State) : Host.Outcome State Fault Refusal :=
  match decode w with
  | .ok i => exec i (latchCommand w s)
  | .error _ => .next (runIllegal (latchCommand w s))

/-- HostWriteReg (R62, R63). -/
def hostWriteReg (r : BitVec 4) (v : Half) (s : State) : Host.Outcome State Fault Refusal :=
  if regOfNumber r = some .cmd then startCommand v s else .next (writeReg r v s)

/-- One transaction, whole and indivisible (R70, R72, R245). -/
def runTransaction (tx : HostTx) (s : State) : Host.Outcome State Fault Refusal :=
  match tx with
  | .reset => .next (resetBlock s)
  | .readReg r => .next (hostReadReg r s)
  | .writeReg r v => hostWriteReg r v s
  | .writeIbuf i b => .next (hostWriteIbuf i b s)
  | .readIbuf i => .next (hostReadIbuf i s)
  | .readObuf i => .next (hostReadObuf i s)
  | .readAddr i => .next (hostReadAddr i s)

/-- The oldest pending transaction is taken off the list, and the reply of the one before it is gone. -/
def takeTransaction (rest : List HostTx) (s : State) : State := { s with pending := rest, reply := .nothing }

end Sys2Proof.Machine
end

