-- ==== Sys2Proof/Machine/Step.lean ====
section
/-! DEFINITION. One step of the machine: the host's oldest pending transaction takes effect (R72). -/

namespace Sys2Proof.Machine

open Sys2Proof

/-- One step. With no transaction pending the block waits, unchanged (log entry 3). -/
def step (s : State) : Host.Outcome State Fault Refusal :=
  match s.pending with
  | [] => .next s
  | tx :: rest => runTransaction tx (takeTransaction rest s)

/-- The state whose next transaction is the write of CMD with the table word `w` (R74: "the command executed is
the value carried by the CMD write itself"; log entry 5). -/
def State.withFetchWord (s : State) (nbits w : Nat) : State :=
  { s with pending := .writeReg (numberOfReg .cmd) (commandWord nbits w) :: s.pending }

end Sys2Proof.Machine
end

