-- ==== Sys2Proof/Machine/Script.lean ====
section
/-! DEFINITION. The host-script notation of `30_encoding.md` R104 and R105: a statement is the transactions it
stands for, each with the reply the script states for it, if it states one. -/

namespace Sys2Proof.Machine

open Sys2Proof

/-- A script line after expansion: a transaction, and the value stated after `=>`. -/
structure ScriptLine where
  tx       : HostTx
  expected : Option HostReply
  deriving DecidableEq, Repr

/-- The statements of R104 and the pseudo-statements of R105. A text is given as its ASCII bytes, so `ibuf.s` and
`ibuf.x` are both `ibuf`, and `obuf?` and `obuf.s?` are both `obufIs`. -/
inductive ScriptStatement where
  | reset
  | wr (name : Reg) (v : Half)
  | rd (name : Reg) (expected : Option Half)
  | wib (i : BitVec 8) (b : Byte)
  | rib (i : BitVec 8) (expected : Option Byte)
  | rob (i : BitVec 9) (expected : Option Byte)
  | rad (i : BitVec 6) (expected : Option Byte)
  | cmd (i : Instr)
  | ibuf (bytes : List Byte)
  | obufIs (bytes : List Byte)
  | addrIs (bytes : List Byte)
  deriving DecidableEq, Repr

/-- `wib i, b0`, `wib i+1, b1`, ... R105 does not say what a text of more than 256 bytes stands for (`wib 256` names
no byte): here the index goes round to 0. DESIGN CHOICE, log entry 17. -/
def wibLines : Nat → List Byte → List ScriptLine
  | _, [] => []
  | i, b :: bs => { tx := .writeIbuf (BitVec.ofNat 8 i) b, expected := none } :: wibLines (i + 1) bs

/-- `rob i => b0`, `rob i+1 => b1`, ... R105 does not say what more than 512 bytes stand for (`rob 512` is no
transaction): here the index goes round to 0. DESIGN CHOICE, log entry 17. -/
def robLines : Nat → List Byte → List ScriptLine
  | _, [] => []
  | i, b :: bs => { tx := .readObuf (BitVec.ofNat 9 i), expected := some (.byte b) } :: robLines (i + 1) bs

/-- `rad i => b0`, `rad i+1 => b1`, ... R105 shows a text of 48 bytes and does not say what another length stands
for: here one read for each byte given, the index going round to 0 after 63. DESIGN CHOICE, log entry 17. -/
def radLines : Nat → List Byte → List ScriptLine
  | _, [] => []
  | i, b :: bs => { tx := .readAddr (BitVec.ofNat 6 i), expected := some (.byte b) } :: radLines (i + 1) bs

/-- A read of a register that must return `v`. -/
def rdLine (name : Reg) (v : Half) : ScriptLine :=
  { tx := .readReg (numberOfReg name), expected := some (.half v) }

/-- A write of a register. -/
def wrLine (name : Reg) (v : Half) : ScriptLine := { tx := .writeReg (numberOfReg name) v, expected := none }

/-- The transactions of a statement (R104, R105). The number of bytes is cut to the 16 bits of a register access; for
byte sequences longer than the index range see log entry 17. -/
def ScriptStatement.expand : ScriptStatement → List ScriptLine
  | .reset => [{ tx := .reset, expected := none }]
  | .wr name v => [wrLine name v]
  | .rd name e => [{ tx := .readReg (numberOfReg name), expected := e.map .half }]
  | .wib i b => [{ tx := .writeIbuf i b, expected := none }]
  | .rib i e => [{ tx := .readIbuf i, expected := e.map .byte }]
  | .rob i e => [{ tx := .readObuf i, expected := e.map .byte }]
  | .rad i e => [{ tx := .readAddr i, expected := e.map .byte }]
  | .cmd i => [wrLine .cmd (encode i)]
  | .ibuf bs => wibLines 0 bs ++ [wrLine .ilen (BitVec.ofNat 16 bs.length)]
  | .obufIs bs => rdLine .olen (BitVec.ofNat 16 bs.length) :: robLines 0 bs
  | .addrIs bs => radLines 0 bs

/-- The state with a script's transactions as the ones the host issues next. -/
def withScript (script : List ScriptStatement) (s : State) : State :=
  { s with pending := (script.flatMap ScriptStatement.expand).map ScriptLine.tx ++ s.pending }

end Sys2Proof.Machine
end

