-- ==== Sys2Proof/Safety.lean ====
section
/-! DEFINITION. What claims are stated in: the invariants of the state (`10_state.md` R44, `42_address.md` R188) and
the frames of a command. -/

namespace Sys2Proof.Machine

open Sys2Proof

/-! ## Invariants -/

/-- The registers hold what R44 (a) to (e) allows. Of (c), ERROFF is bounded by ILEN_MAX here; that it is bounded
by ILEN "as ILEN stood when the command ran" is a statement about the command. -/
abbrev RegistersLegal (s : State) : Prop :=
  s.result.toNat ≤ 6 ∧
  (s.olen.toNat ≤ Config.obufSize ∧ (s.olen ≠ 0 → s.result = 0)) ∧
  ((s.erroff ≠ 0xFFFF ↔ s.result = Failure.code (.corrupt 0)) ∧
    (s.erroff ≠ 0xFFFF → s.erroff.toNat ≤ Config.ilenMax)) ∧
  (s.errbyte ≠ 0 → s.result = Failure.code (.badKind 0)) ∧
  (s.kind ≠ 0 ↔ (s.cmd = encode .validate ∨ s.cmd = encode .construct) ∧ s.result = 0) ∧
  (s.kind ≠ 0 → (parseKind s.kind).isSome = true ∧ s.matched = true)

/-- The buffers are in canonical form and inside their capacities (R60). -/
abbrev BuffersCanonical (s : State) : Prop :=
  (s.ibuf.wf ∧ s.ibuf.within Config.ibufSize) ∧
  (s.obuf.wf ∧ s.obuf.within Config.obufSize) ∧
  (s.addr.wf ∧ s.addr.within Config.addrSize)

/-- A byte of OBUF is specified exactly below OLEN (R38). -/
def OutputSpecified (s : State) : Prop := ∀ i, (s.obuf.read i).isSome = true ↔ i < s.olen.toNat

/-- What a held address satisfies (R188 (a) to (f)); `d` are its decoded bytes. -/
def AddressValid (bs : List Byte) : Prop :=
  bs.getD 0 0 = 0x6E ∧ bs.getD 1 0 = 0x64 ∧ bs.length = 48 ∧
  ∃ k d, parseKind (bs.getD 2 0) = some k ∧ decodeSymbols .ndau bs = .ok d ∧
    d.drop (d.length - 2) = checksum16 (d.take (d.length - 2)) ∧
    lowerAll bs = bs ∧ validate bs = .ok k

/-- "Whenever AVALID is 1" ADDR holds a valid address (R188). -/
def AddressHeld (s : State) : Prop := s.avalid = true → ∃ bs, heldAddress s = some bs ∧ AddressValid bs

/-! ## Frames -/

/-- How many indices below `n` of a buffer hold no specified byte. -/
def unwrittenBelow (m : Memory) : Nat → Nat
  | 0 => 0
  | n + 1 => unwrittenBelow m n + (if (m.read n).isNone then 1 else 0)

/-- No command changes CMD, ILEN, CKEXP or IBUF (R24, R25, R26, R37). -/
def OperandsKept (s t : State) : Prop :=
  t.cmd = s.cmd ∧ t.ilen = s.ilen ∧ t.ckexp = s.ckexp ∧ ∀ i, t.ibuf.read i = s.ibuf.read i

/-- The host's side is as it was (log entries 3 and 4). -/
def HostSideKept (s t : State) : Prop := t.pending = s.pending ∧ t.reply = s.reply

/-- One free value has been drawn for each unwritten input byte (U5, log entry 12). -/
def InputConsumed (s t : State) : Prop := t.draws = s.draws + unwrittenBelow s.ibuf s.ilen.toNat

/-- What every legal command leaves as it was. -/
def CommandFrame (s t : State) : Prop := OperandsKept s t ∧ HostSideKept s t ∧ InputConsumed s t

/-- ADDR and AVALID are as they were. -/
def AddressSlotKept (s t : State) : Prop := t.avalid = s.avalid ∧ ∀ i, t.addr.read i = s.addr.read i

/-- The output sequence is `bs` (R33): OLEN is its length, and OBUF holds its bytes. What OBUF holds beyond them is
not said here (`OutputSpecified`). -/
def OutputIs (t : State) (bs : List Byte) : Prop :=
  t.olen.toNat = bs.length ∧ ∀ i, i < bs.length → t.obuf.read i = bs[i]?

/-- The failure registers of a command that did not fail (R28, R30, R31). -/
def NoFailure (t : State) : Prop := t.result = 0 ∧ t.erroff = 0xFFFF ∧ t.errbyte = 0x00

/-- The failure registers of a command that ended with `f` (R211, R212): code, offset, byte. -/
def FailedWith (t : State) (f : Failure) : Prop :=
  match f with
  | .badPrefix => t.result = 1 ∧ t.erroff = 0xFFFF ∧ t.errbyte = 0x00
  | .badLength => t.result = 2 ∧ t.erroff = 0xFFFF ∧ t.errbyte = 0x00
  | .badKind b => t.result = 3 ∧ t.erroff = 0xFFFF ∧ t.errbyte = b
  | .corrupt off => t.result = 4 ∧ t.erroff.toNat = off ∧ t.errbyte = 0x00
  | .badChecksum => t.result = 5 ∧ t.erroff = 0xFFFF ∧ t.errbyte = 0x00
  | .illegalCommand => t.result = 6 ∧ t.erroff = 0xFFFF ∧ t.errbyte = 0x00

/-- The whole block, the host's side apart, is as it was. -/
def BlockKept (s t : State) : Prop :=
  OperandsKept s t ∧ AddressSlotKept s t ∧ t.result = s.result ∧ t.erroff = s.erroff ∧ t.errbyte = s.errbyte ∧
  t.crc = s.crc ∧ t.olen = s.olen ∧ t.kind = s.kind ∧ t.matched = s.matched ∧ ∀ i, t.obuf.read i = s.obuf.read i

/-- What the results of a finished command are held in: the result group, CRC, OBUF, ADDR and AVALID (R246). -/
def ResultsKept (s t : State) : Prop :=
  AddressSlotKept s t ∧ t.result = s.result ∧ t.erroff = s.erroff ∧ t.errbyte = s.errbyte ∧
  t.crc = s.crc ∧ t.olen = s.olen ∧ t.kind = s.kind ∧ t.matched = s.matched ∧ ∀ i, t.obuf.read i = s.obuf.read i

end Sys2Proof.Machine
end

