-- ==== Sys2Proof/Certificates/Slice0/Obligations.lean ====
section
/-! DEFINITION. The statements for the provers. A statement about a free value holds for every value of it: none
rests on what `Config.freeByte` is or on the value of `draws`. -/

section

open Sys2Proof Sys2Proof.Machine

/-! ## Command words -/

/-- R92: the command word of each operation decodes to it. -/
def Obligations.CommandWordsDecode : Prop :=
  decode 0x0001 = .ok .crc16 ∧ decode 0x0002 = .ok .crcchk ∧
  decode 0x0003 = .ok .decStd ∧ decode 0x0013 = .ok .decNdau ∧
  decode 0x0004 = .ok .encStd ∧ decode 0x0014 = .ok .encNdau ∧
  decode 0x0005 = .ok .validate ∧ decode 0x0006 = .ok .construct

/-- R90, R92: every command's word has well-formed fields and decodes to the command. -/
def Obligations.CommandDecodeOfEncode : Prop :=
  ∀ i : Instr, i.wellFormed = true ∧ commandFields (encode i) = i.fields ∧ decode (encode i) = .ok i

/-- R92: over all 2^16 words, the legal ones are the eight of the table, each the encoding of its command. -/
def Obligations.LegalWordsAreTheEight : Prop :=
  ∀ w : Half,
    (∀ i, decode w = .ok i ↔ (w, i) ∈
      ([(0x0001, .crc16), (0x0002, .crcchk), (0x0003, .decStd), (0x0013, .decNdau), (0x0004, .encStd),
        (0x0014, .encNdau), (0x0005, .validate), (0x0006, .construct)] : List (Half × Instr))) ∧
    (∀ i, encode i = w ↔ decode w = .ok i) ∧
    ((∃ i, decode w = .ok i) ↔ (commandFields w).wellFormed = true)

/-- R94: a word is illegal by a reserved bit, by its OP, or by a codec select its OP does not take. It does not
trap: the result group describes E_ILLEGAL and everything else stays. The transaction list, the reply and the draw
counter are the model's own (log entries 2, 3 and 4). -/
def Obligations.IllegalWordRecorded : Prop :=
  ∀ (s : State) (w : Half) (rest : List HostTx),
    s.pending = .writeReg 0 w :: rest →
    w.toNat / 32 ≠ 0 ∨ w.toNat % 16 = 0 ∨ 7 ≤ w.toNat % 16 ∨
      (w.toNat / 16 % 2 = 1 ∧ w.toNat % 16 ∈ [1, 2, 5, 6]) →
    ∃ t, step s = .next t ∧ FailedWith t .illegalCommand ∧ t.result = 6 ∧ t.kind = 0x00 ∧ t.matched = false ∧
      OutputIs t [] ∧ okFlag t = false ∧ t.cmd = w ∧ t.crc = s.crc ∧ t.ilen = s.ilen ∧ t.ckexp = s.ckexp ∧
      (∀ i, t.ibuf.read i = s.ibuf.read i) ∧ AddressSlotKept s t ∧
      t.pending = rest ∧ t.reply = .nothing ∧ t.draws = s.draws

/-- R24, R93: a write of CMD stores the word and runs the command it decodes to. The step around it takes the
transaction off the list and clears the reply of the one before (log entries 3 and 4). -/
def Obligations.StepRunsDecodedCommand : Prop :=
  ∀ (s : State) (w : Half) (rest : List HostTx) (i : Instr),
    s.pending = .writeReg 0 w :: rest → decode w = .ok i →
    step s = exec i { s with cmd := w, pending := rest, reply := .nothing }

/-! ## Operands -/

/-- R25, R91, U5: the input is IBUF[0..ILEN), each unwritten byte a free value of its own, drawn in index order
(log entries 1 and 12; the free values are unconstrained). -/
def Obligations.InputSequenceReadsBuffer : Prop :=
  ∀ s : State,
    (inputBytes s).length = s.ilen.toNat ∧
    drawsAfterInput s = s.draws + unwrittenBelow s.ibuf s.ilen.toNat ∧
    ∀ i, i < s.ilen.toNat →
      (∀ b, s.ibuf.read i = some b → (inputBytes s)[i]? = some b) ∧
      (s.ibuf.read i = none →
        (inputBytes s)[i]? = some (Config.freeByte (s.draws + unwrittenBelow s.ibuf i)))

/-- R24, R25, R26, R37, R245: every command ends, and none changes CMD, ILEN, CKEXP or IBUF. The frame's
clauses on the transaction list, the reply and the draw counter are about the model's own fields (log entries 2, 3, 4
and 12). -/
def Obligations.CommandsEndAndKeepOperands : Prop :=
  ∀ (i : Instr) (s : State), ∃ t, exec i s = .next t ∧ CommandFrame s t

/-- R37, R91: bytes of IBUF at index ILEN and above do not influence a command. -/
def Obligations.BytesBeyondIlenIgnored : Prop :=
  ∀ (i : Instr) (s : State) (m : Memory),
    (∀ j, j < s.ilen.toNat → m.read j = s.ibuf.read j) →
    ∃ t, exec i s = .next t ∧ exec i { s with ibuf := m } = .next { t with ibuf := m }

/-- R26, R75: no command but CRCCHK reads CKEXP. -/
def Obligations.CkexpReadOnlyByCrcchk : Prop :=
  ∀ (i : Instr) (s : State) (v : Half), i ≠ .crcchk →
    ∃ t, exec i s = .next t ∧ exec i { s with ckexp := v } = .next { t with ckexp := v }

/-! ## CRC16 and CRCCHK -/

/-- R165, with its corner case and its example. -/
def Obligations.CrcSixteenCompletes : Prop :=
  encode .crc16 = 0x0001 ∧ ∀ s : State, ∃ t, exec .crc16 s = .next t ∧
    t.crc = crc16 (inputBytes s) ∧ OutputIs t [(t.crc >>> 8).setWidth 8, t.crc.setWidth 8] ∧
    NoFailure t ∧ okFlag t = true ∧ t.kind = 0x00 ∧ t.matched = false ∧ AddressSlotKept s t ∧ OperandsKept s t ∧
    (s.ilen = 0 → t.crc = 0x1D0F) ∧
    (inputBytes s = [0x31, 0x32, 0x33, 0x34, 0x35, 0x36, 0x37, 0x38, 0x39] → t.crc = 0xE5CC)

/-- R166, with its corner case and its example: a mismatch is no failure. -/
def Obligations.CrcchkCompletes : Prop :=
  encode .crcchk = 0x0002 ∧ ∀ s : State, ∃ t, exec .crcchk s = .next t ∧
    t.crc = crc16 (inputBytes s) ∧
    (t.matched = true ↔ t.crc >>> 8 = s.ckexp >>> 8 ∧ t.crc.setWidth 8 = s.ckexp.setWidth 8) ∧
    (t.matched = true ↔ t.crc = s.ckexp) ∧
    OutputIs t [] ∧ NoFailure t ∧ t.kind = 0x00 ∧ AddressSlotKept s t ∧ OperandsKept s t ∧
    (statusView t).toNat = 1 + (if t.matched then 2 else 0) + (if s.avalid then 4 else 0) ∧
    (s.ilen = 0 → (t.matched = true ↔ s.ckexp = 0x1D0F)) ∧
    (inputBytes s = [0x31, 0x32, 0x33, 0x34, 0x35, 0x36, 0x37, 0x38, 0x39] →
      (t.matched = true ↔ s.ckexp = 0xE5CC))

/-- R164: the table-driven engine returns the same value for every input, with the table entries the rule lists. -/
def Obligations.CrcTableEngineAgrees : Prop :=
  (∀ bs : List Byte, crcTableRun crcInit bs = crc16 bs) ∧
  crcTable 0x00 = 0x0000 ∧ crcTable 0x01 = 0x1021 ∧ crcTable 0x02 = 0x2042 ∧
  crcTable 0x80 = 0x9188 ∧ crcTable 0xFF = 0x1EF0

/-- R167: the residue of a sequence followed by two bytes is zero exactly when they are its checksum. -/
def Obligations.ChecksumResidue : Prop :=
  ∀ bs : List Byte,
    crc16 (bs ++ checksum16 bs) = 0x0000 ∧
    (∀ e : List Byte, e.length = 2 → (crc16 (bs ++ e) = 0x0000 ↔ check bs e = true)) ∧
    (2 ≤ bs.length → residueOk bs = suffixOk bs)

/-- A sequence passes with its own checksum (R163; R168 quotes the sentence). That it never passes once one byte is
changed is an INFERENCE from the procedure of R160 and the comparison of R163, and no rule of the spec: R168 quotes
"not guaranteed", and the spec relies on no burst property (G3 and U9 of 93_implementation_defined.md). -/
def Obligations.ChecksumDetectsOneByte : Prop :=
  ∀ (pre post : List Byte) (b b' : Byte),
    check (pre ++ b :: post) (checksum16 (pre ++ b :: post)) = true ∧
    (b ≠ b' → check (pre ++ b' :: post) (checksum16 (pre ++ b :: post)) = false)

/-! ## ENC -/

/-- R127, R128, with their corner cases and examples. -/
def Obligations.EncCommandsComplete : Prop :=
  encode .encStd = 0x0004 ∧ encode .encNdau = 0x0014 ∧
  (∀ p ∈ [(Instr.encStd, Codec.std), (Instr.encNdau, Codec.ndau)], ∀ s : State, ∃ t, exec p.1 s = .next t ∧
    OutputIs t (encodeBytes p.2 (inputBytes s)) ∧ t.olen.toNat = encodedLen s.ilen.toNat ∧
    (s.ilen = 0 → t.olen = 0) ∧ (s.ilen = 255 → t.olen = 408) ∧
    NoFailure t ∧ okFlag t = true ∧ t.kind = 0x00 ∧ t.matched = false ∧ t.crc = s.crc ∧
    AddressSlotKept s t ∧ OperandsKept s t) ∧
  encodeBytes .std [0x66, 0x6F, 0x6F, 0x62, 0x61, 0x72] =
    [0x4D, 0x5A, 0x58, 0x57, 0x36, 0x59, 0x54, 0x42, 0x4F, 0x49, 0x3D, 0x3D, 0x3D, 0x3D, 0x3D, 0x3D] ∧
  encodeBytes .ndau [0x01, 0x02, 0x03, 0x04, 0x05] = [0x61, 0x65, 0x62, 0x61, 0x67, 0x62, 0x61, 0x66] ∧
  encodeBytes .ndau [0x00, 0x00, 0x00, 0x00, 0x00] = List.replicate 8 0x61

/-- R123. -/
def Obligations.EncodeLengthExact : Prop :=
  (∀ n, encodedLen n = (n / 5 + if n % 5 = 0 then 0 else 1) * 8 ∧ encodedLen n % 8 = 0 ∧
    (n ≤ 255 → encodedLen n ≤ 408 ∧ encodedLen n < 2 ^ 9)) ∧
  (∀ (c : Codec) (bs : List Byte), (encodeBytes c bs).length = encodedLen bs.length) ∧
  encodedLen 0 = 0 ∧ (∀ n ∈ [1, 2, 3, 4, 5], encodedLen n = 8) ∧ encodedLen 6 = 16 ∧ encodedLen 30 = 48 ∧
  encodedLen 34 = 56 ∧ encodedLen 255 = 408

/-- R101, R125: the symbols of one quantum, written out from its bytes, missing bytes 0; the last quantum ends in
pads. Longer inputs are their quanta in order (`EncodeSplitsAtQuantum`). -/
def Obligations.EncodeSymbolsByFormula : Prop :=
  ∀ (c : Codec) (bs : List Byte), bs.length ∈ [1, 2, 3, 4, 5] →
    ∃ gs : List Group5, encodeBytes c bs = gs.map (sym c) ++ List.replicate (8 - gs.length) pad ∧
      gs.map BitVec.toNat =
        (let b := fun m => (bs.getD m 0).toNat
         [b 0 / 8,
          b 0 % 8 * 4 + b 1 / 64,
          b 1 / 2 % 32,
          b 1 % 2 * 16 + b 2 / 16,
          b 2 % 16 * 2 + b 3 / 128,
          b 3 / 4 % 32,
          b 3 % 4 * 8 + b 4 / 32,
          b 4 % 32].take (match bs.length with | 1 => 2 | 2 => 4 | 3 => 5 | 4 => 7 | _ => 8))

/-- R102, R125, R126 (c), (d): the pads are the symbols after the real ones of a short last group; every other
symbol is of the alphabet. -/
def Obligations.EncodePadsShortGroup : Prop :=
  ∀ (c : Codec) (bs : List Byte) (i : Nat) (b : Byte), (encodeBytes c bs)[i]? = some b →
    (b = pad ↔
      bs.length % 5 ≠ 0 ∧
      8 * (bs.length / 5) + (match bs.length % 5 with | 1 => 2 | 2 => 4 | 3 => 5 | 4 => 7 | _ => 8) ≤ i) ∧
    (b ≠ pad → b ∈ alphabet c)

/-- R126 (e): full quanta are encoded one after another. -/
def Obligations.EncodeSplitsAtQuantum : Prop :=
  ∀ (c : Codec) (bs bt : List Byte), bs.length % 5 = 0 →
    encodeBytes c (bs ++ bt) = encodeBytes c bs ++ encodeBytes c bt

/-! ## DEC -/

/-- R135, R136: an input that decodes. -/
def Obligations.DecCommandsComplete : Prop :=
  ∀ p ∈ [(Instr.decStd, Codec.std), (Instr.decNdau, Codec.ndau)], ∀ (s : State) (bs : List Byte),
    decodeSymbols p.2 (inputBytes s) = .ok bs →
    ∃ t, exec p.1 s = .next t ∧ OutputIs t bs ∧ bs.length ≤ decodedLen s.ilen.toNat ∧
      NoFailure t ∧ t.kind = 0x00 ∧ t.matched = false ∧ t.crc = s.crc ∧ AddressSlotKept s t ∧ OperandsKept s t

/-- R135, R136: an input that does not. -/
def Obligations.DecCommandsReportCorruption : Prop :=
  ∀ p ∈ [(Instr.decStd, Codec.std), (Instr.decNdau, Codec.ndau)], ∀ (s : State) (off : Nat),
    decodeSymbols p.2 (inputBytes s) = .error off →
    ∃ t, exec p.1 s = .next t ∧ FailedWith t (.corrupt off) ∧ off ≤ s.ilen.toNat ∧
      OutputIs t [] ∧ t.kind = 0x00 ∧ t.matched = false ∧ t.crc = s.crc ∧ AddressSlotKept s t ∧ OperandsKept s t

/-- R129 to R132: the outcome of a decode, by what follows the longest run of symbols looked up so far (`pre`);
`j` is the position in the quantum. The clauses are success on full quanta, E1, E6, E2, E3, E4, E5, and success
on a padded quantum. -/
def Obligations.DecodeOutcomes : Prop :=
  ∀ (c : Codec) (s0 pre rest : List Byte), foldInput c s0 = pre ++ rest →
    (∀ b ∈ pre, (lut c b).isSome = true) →
    (rest = [] → pre.length % 8 = 0 →
      ∃ bs, decodeSymbols c s0 = .ok bs ∧ bs.length = 5 * (pre.length / 8)) ∧
    (rest = [] → pre.length % 8 ≠ 0 → decodeSymbols c s0 = .error s0.length) ∧
    (∀ b more, rest = b :: more → lut c b = none →
      ¬(b = pad ∧ 2 ≤ pre.length % 8 ∧ more.length < 8) → decodeSymbols c s0 = .error pre.length) ∧
    (∀ k, rest = pad :: List.replicate k pad → 2 ≤ pre.length % 8 → k < 7 - pre.length % 8 →
      decodeSymbols c s0 = .error s0.length) ∧
    (∀ k x more, rest = pad :: (List.replicate k pad ++ x :: more) → x ≠ pad → 2 ≤ pre.length % 8 →
      k < 7 - pre.length % 8 → k + 1 + more.length < 8 → decodeSymbols c s0 = .error pre.length) ∧
    (∀ x more, rest = pad :: (List.replicate (7 - pre.length % 8) pad ++ x :: more) → 2 ≤ pre.length % 8 →
      7 - pre.length % 8 + 1 + more.length < 8 → decodeSymbols c s0 = .error pre.length) ∧
    (rest = pad :: List.replicate (7 - pre.length % 8) pad → pre.length % 8 = 3 ∨ pre.length % 8 = 6 →
      decodeSymbols c s0 = .error pre.length) ∧
    (rest = pad :: List.replicate (7 - pre.length % 8) pad → pre.length % 8 ∈ [2, 4, 5, 7] →
      ∃ bs, decodeSymbols c s0 = .ok bs ∧ bs.length = 5 * (pre.length / 8) + 5 * (pre.length % 8) / 8)

/-- R101, R102, R132: the bytes of one quantum, written out from its groups; the low bits of the last real symbol
are not examined (R133 (a)). -/
def Obligations.QuantumDecodesByFormula : Prop :=
  ∀ (c : Codec) (gs : List Group5), gs.length ∈ [2, 4, 5, 7, 8] →
    ∃ bs, decodeSymbols c (gs.map (sym c) ++ List.replicate (8 - gs.length) pad) = .ok bs ∧
      bs.map BitVec.toNat =
        (let g := fun p => (gs.getD p 0).toNat
         [g 0 * 8 + g 1 / 4,
          (g 1 * 64 + g 2 * 2 + g 3 / 16) % 256,
          (g 3 * 16 + g 4 / 2) % 256,
          (g 4 * 128 + g 5 * 4 + g 6 / 8) % 256,
          (g 6 * 32 + g 7) % 256].take (match gs.length with | 2 => 1 | 4 => 2 | 5 => 3 | 7 => 4 | _ => 5))

/-- R129, R133 (a): full quanta of symbols are decoded one after another, whatever follows them: their bytes come
first, and a fault behind them is reported at its place in the whole input. With `QuantumDecodesByFormula`, quantum by
quantum, and `NdauDecodeIgnoresCase` this gives the bytes of every input that decodes. -/
def Obligations.DecodeSplitsAtQuantum : Prop :=
  ∀ (c : Codec) (pre : List Byte), pre.length % 8 = 0 → (∀ b ∈ foldInput c pre, (lut c b).isSome = true) →
    ∃ out, decodeSymbols c pre = .ok out ∧ out.length = 5 * (pre.length / 8) ∧
      ∀ rest,
        (∀ bs, decodeSymbols c rest = .ok bs → decodeSymbols c (pre ++ rest) = .ok (out ++ bs)) ∧
        (∀ off, decodeSymbols c rest = .error off → decodeSymbols c (pre ++ rest) = .error (pre.length + off))

/-- R134 (b), (e), R124: the length of a decoded sequence and the range of a reported offset. -/
def Obligations.DecodeLengthBounds : Prop :=
  ∀ (c : Codec) (s0 : List Byte),
    (∀ bs, decodeSymbols c s0 = .ok bs →
      s0.length % 8 = 0 ∧ bs.length ≤ decodedLen s0.length ∧ decodedLen s0.length ≤ bs.length + 4) ∧
    (∀ off, decodeSymbols c s0 = .error off → off ≤ s0.length)

/-- R134 (d): the ndau codec does not see case, in its bytes or in its offsets. -/
def Obligations.NdauDecodeIgnoresCase : Prop :=
  ∀ s0 : List Byte, decodeSymbols .ndau s0 = decodeSymbols .ndau (lowerAll s0)

/-- R134 (c): decoding an encoded byte sequence gives it back, for both codecs and every length. -/
def Obligations.DecodeInvertsEncode : Prop :=
  ∀ (c : Codec) (bs : List Byte), decodeSymbols c (encodeBytes c bs) = .ok bs

/-- R134 (c), through the machine: what ENC emitted, copied into IBUF, is what DEC gives back, for every input of
at most 155 bytes. -/
def Obligations.EncThenDecRestoresInput : Prop :=
  ∀ p ∈ [(Instr.encStd, Instr.decStd), (Instr.encNdau, Instr.decNdau)], ∀ s t u : State,
    s.ilen.toNat ≤ 155 → exec p.1 s = .next t →
    u.ilen.toNat = t.olen.toNat → (∀ i, i < t.olen.toNat → u.ibuf.read i = t.obuf.read i) →
    ∃ v, exec p.2 u = .next v ∧ v.result = 0 ∧ v.olen.toNat = s.ilen.toNat ∧
      (∀ i, i < s.ilen.toNat → v.obuf.read i = (inputBytes s)[i]?) ∧
      ∀ i b, i < s.ilen.toNat → s.ibuf.read i = some b → v.obuf.read i = some b

/-! ## Codec constants -/

/-- R120. -/
def Obligations.LowerFoldsAsciiCapitals : Prop :=
  (∀ b : Byte, (lower b).toNat = if 0x41 ≤ b.toNat ∧ b.toNat ≤ 0x5A then b.toNat + 0x20 else b.toNat) ∧
  (∀ bs : List Byte, (lowerAll bs).length = bs.length ∧ lowerAll (lowerAll bs) = lowerAll bs ∧
    ∀ i : Nat, (lowerAll bs)[i]? = (bs[i]?).map lower)

/-- R121: the tables built from the alphabets, as ranges, and the bijection of symbols and values. -/
def Obligations.DecodeTablesMatch : Prop :=
  (∀ (c : Codec) (b : Byte), (decodeTable (alphabet c))[b.toNat]? = some (lut c b)) ∧
  (∀ (c : Codec) (v : Group5), lut c (sym c v) = some v) ∧
  (∀ (c : Codec) (b : Byte) (v : Group5), lut c b = some v → sym c v = b) ∧
  (∀ b : Byte, (lut .std b).map BitVec.toNat =
    if 0x41 ≤ b.toNat ∧ b.toNat ≤ 0x5A then some (b.toNat - 0x41)
    else if 0x32 ≤ b.toNat ∧ b.toNat ≤ 0x37 then some (b.toNat - 0x32 + 26)
    else none) ∧
  (∀ b : Byte, (lut .ndau b).map BitVec.toNat =
    if 0x61 ≤ b.toNat ∧ b.toNat ≤ 0x6B then some (b.toNat - 0x61)
    else if b.toNat = 0x6D then some 11
    else if b.toNat = 0x6E then some 12
    else if 0x70 ≤ b.toNat ∧ b.toNat ≤ 0x7A then some (b.toNat - 0x70 + 13)
    else if 0x32 ≤ b.toNat ∧ b.toNat ≤ 0x39 then some (b.toNat - 0x32 + 24)
    else none) ∧
  (∀ b : Byte, 0x41 ≤ b.toNat → b.toNat ≤ 0x5A →
    lut .ndau b = none ∧ (lut .ndau (lower b) = none ↔ b = 0x4C ∨ b = 0x4F))

/-- R98, R122: both alphabets pass the design-time check. -/
def Obligations.AlphabetsWellFormed : Prop :=
  ∀ c : Codec, alphabetWellFormed pad (alphabet c) = true ∧ lut c pad = none ∧ lower pad = pad

/-- R180, R181: the six tags and no other byte, both ways. -/
def Obligations.KindTagsBijective : Prop :=
  (∀ k : Kind, parseKind (kindByte k) = some k) ∧
  (∀ (b : Byte) (k : Kind), parseKind b = some k → kindByte k = b) ∧
  (∀ b : Byte, parseKind b = none ↔ b ∉ ([0x61, 0x6E, 0x65, 0x78, 0x62, 0x6D] : List Byte)) ∧
  (∀ b ∈ ([0x41, 0x4E, 0x45, 0x58, 0x42, 0x4D] : List Byte),
    parseKind b = none ∧ (parseKind (lower b)).isSome = true) ∧
  parseKind 0x61 = some .user ∧ parseKind 0x6E = some .ndau ∧ parseKind 0x65 = some .endowment ∧
  parseKind 0x78 = some .exchange ∧ parseKind 0x62 = some .bpc ∧ parseKind 0x6D = some .marketMaker

/-! ## VALIDATE and CONSTRUCT -/

/-- R182: the seven steps in order, first failure wins. -/
def Obligations.ValidateFollowsStepOrder : Prop :=
  ∀ s0 : List Byte,
    (¬((lowerAll s0)[0]? = some 0x6E ∧ (lowerAll s0)[1]? = some 0x64) → validate s0 = .error .badPrefix) ∧
    ((lowerAll s0)[0]? = some 0x6E → (lowerAll s0)[1]? = some 0x64 →
      (s0.length ≠ 48 → validate s0 = .error .badLength) ∧
      (s0.length = 48 → ∃ b, (lowerAll s0)[2]? = some b ∧
        (parseKind b = none → validate s0 = .error (.badKind b)) ∧
        (∀ k, parseKind b = some k →
          (∀ off, decodeSymbols .ndau (lowerAll s0) = .error off → validate s0 = .error (.corrupt off)) ∧
          (∀ d, decodeSymbols .ndau (lowerAll s0) = .ok d →
            (check (d.take (d.length - 2)) (d.drop (d.length - 2)) = false →
              validate s0 = .error .badChecksum) ∧
            (check (d.take (d.length - 2)) (d.drop (d.length - 2)) = true → validate s0 = .ok k)))))

/-- R184: a candidate that is valid. -/
def Obligations.ValidateCompletes : Prop :=
  ∀ (s : State) (k : Kind), validate (inputBytes s) = .ok k →
    ∃ t d, exec .validate s = .next t ∧ decodeSymbols .ndau (lowerAll (inputBytes s)) = .ok d ∧
      t.kind = kindByte k ∧ t.matched = true ∧ t.crc = crc16 (d.take (d.length - 2)) ∧
      NoFailure t ∧ OutputIs t [] ∧ AddressSlotKept s t ∧ OperandsKept s t

/-- R186: a candidate that is valid is held, lower-cased. -/
def Obligations.ConstructCompletes : Prop :=
  ∀ (s : State) (k : Kind), validate (inputBytes s) = .ok k →
    ∃ t d, exec .construct s = .next t ∧ decodeSymbols .ndau (lowerAll (inputBytes s)) = .ok d ∧
      t.kind = kindByte k ∧ t.matched = true ∧ t.crc = crc16 (d.take (d.length - 2)) ∧
      NoFailure t ∧ OutputIs t [] ∧ t.avalid = true ∧
      (∀ i, i < 48 → t.addr.read i = (lowerAll (inputBytes s))[i]?) ∧
      (∀ i, 48 ≤ i → t.addr.read i = s.addr.read i) ∧
      heldAddress t = some (lowerAll (inputBytes s)) ∧ heldKind t = some k ∧ OperandsKept s t

/-- R184, R186, R212: a candidate that is not; ADDR and AVALID stay, CRC is written only by step 7. -/
def Obligations.ValidatorFailuresRecorded : Prop :=
  ∀ i ∈ [Instr.validate, Instr.construct], ∀ (s : State) (f : Failure),
    validate (inputBytes s) = .error f →
    ∃ t, exec i s = .next t ∧ FailedWith t f ∧ t.kind = 0x00 ∧ t.matched = false ∧ OutputIs t [] ∧
      (f ≠ .badChecksum → t.crc = s.crc) ∧
      (f = .badChecksum → ∃ d, decodeSymbols .ndau (lowerAll (inputBytes s)) = .ok d ∧
        t.crc = crc16 (d.take (d.length - 2))) ∧
      AddressSlotKept s t ∧ OperandsKept s t

/-- R190, R182 step 6: 48 symbols that decode give 26 to 30 bytes; pads are not refused. -/
def Obligations.AddressDecodesTo26To30 : Prop :=
  ∀ s0 d : List Byte, s0.length = 48 → decodeSymbols .ndau s0 = .ok d →
    (d.length = 30 ↔ pad ∉ s0) ∧ d.length ∈ [26, 27, 28, 29, 30]

/-- R192: case plays no part in validation, nor in what a failure reports. -/
def Obligations.ValidateIgnoresCase : Prop :=
  ∀ s0 : List Byte, validate s0 = validate (lowerAll s0)

/-- R189: constructing again from the held address succeeds and leaves it. -/
def Obligations.ConstructAgainKeepsAddress : Prop :=
  ∀ s t u : State, exec .construct s = .next t → t.result = 0 →
    u.addr = t.addr → u.avalid = t.avalid → heldAddress t = some (inputBytes u) →
    heldAddress t = some (lowerAll (inputBytes s)) ∧
    ∃ v, exec .construct u = .next v ∧ v.result = 0 ∧ v.kind = t.kind ∧ AddressSlotKept u v

/-! ## Whole-machine rules -/

/-- R214: which command can end with which code. -/
def Obligations.ResultCodesByCommand : Prop :=
  ∀ (i : Instr) (s : State), ∃ t, exec i s = .next t ∧
    t.result ∈
      (match i with
       | .crc16 => [0]
       | .crcchk => [0]
       | .encStd => [0]
       | .encNdau => [0]
       | .decStd => [0, 4]
       | .decNdau => [0, 4]
       | .validate => [0, 1, 2, 3, 4, 5]
       | .construct => [0, 1, 2, 3, 4, 5] : List (BitVec 4))

/-- R29, R32, R45: no command's outcome depends on the result of an earlier one: what it writes is the same from any
two states that agree on ILEN, CKEXP, IBUF and the draw counter (the model's own, log entry 2). -/
def Obligations.CommandIgnoresEarlierResults : Prop :=
  ∀ (i : Instr) (s u : State),
    u.ilen = s.ilen → u.ckexp = s.ckexp → (∀ j, u.ibuf.read j = s.ibuf.read j) → u.draws = s.draws →
    ∃ t v, exec i s = .next t ∧ exec i u = .next v ∧
      v.result = t.result ∧ v.erroff = t.erroff ∧ v.errbyte = t.errbyte ∧ v.olen = t.olen ∧ v.kind = t.kind ∧
      v.matched = t.matched ∧ (∀ j, v.obuf.read j = t.obuf.read j) ∧ v.draws = t.draws ∧
      (i = .crc16 ∨ i = .crcchk → v.crc = t.crc) ∧
      (i = .construct → t.result = 0 → heldAddress v = heldAddress t ∧ v.crc = t.crc) ∧
      (i = .validate → t.result = 0 → v.crc = t.crc)

/-- R246, R218: the results of a command stay until the next write of CMD or reset, whatever the host does.
What the host issues stands in the model's transaction list (log entry 3). -/
def Obligations.ResultsStayUntilNextCommand : Prop :=
  ∀ s t : State, step s = .next t → s.pending.head? ≠ some .reset →
    (∀ w, s.pending.head? ≠ some (.writeReg 0 w)) → ResultsKept s t ∧ t.cmd = s.cmd

/-- R242, and R166 for CRCCHK: with ILEN 0 no byte of IBUF is read, so each of the eight commands is fully specified:
none draws a free value (the draw counter is the model's own, log entries 2 and 12). -/
def Obligations.CommandsOnEmptyInput : Prop :=
  ∀ s : State, s.ilen = 0 →
    (∃ t, exec .crc16 s = .next t ∧ t.crc = 0x1D0F ∧ OutputIs t [0x1D, 0x0F] ∧ t.draws = s.draws) ∧
    (∃ t, exec .crcchk s = .next t ∧ t.crc = 0x1D0F ∧ (t.matched = true ↔ s.ckexp = 0x1D0F) ∧ NoFailure t ∧
      OutputIs t [] ∧ t.draws = s.draws) ∧
    (∀ i ∈ [Instr.encStd, Instr.encNdau, Instr.decStd, Instr.decNdau],
      ∃ t, exec i s = .next t ∧ NoFailure t ∧ OutputIs t [] ∧ t.draws = s.draws) ∧
    (∀ i ∈ [Instr.validate, Instr.construct],
      ∃ t, exec i s = .next t ∧ FailedWith t .badPrefix ∧ AddressSlotKept s t ∧ t.draws = s.draws)

/-- R245 and the closing line of Part 1 of 93_implementation_defined.md: nothing hangs or faults the block.
The transaction list, and a step with none pending, are the model's own (log entries 3 and 13). -/
def Obligations.EveryStepAnswersNext : Prop :=
  ∀ s : State, ∃ t, step s = .next t ∧ (s.pending = [] → t = s) ∧ t.pending = s.pending.tail

/-- R39: the held address changes only by a CONSTRUCT that succeeds and by reset. What the host issues stands in the
model's transaction list (log entry 3). -/
def Obligations.HeldAddressChangesOnlyByConstruct : Prop :=
  ∀ s t : State, step s = .next t → s.pending.head? ≠ some .reset →
    (s.pending.head? = some (.writeReg 0 0x0006) → t.result ≠ 0) → AddressSlotKept s t

/-- R32: CRC changes only by a command that computes a checksum, and by reset; a validation that fails before
step 7 leaves it. What the host issues stands in the model's transaction list (log entry 3). -/
def Obligations.CrcChangesOnlyByChecksum : Prop :=
  ∀ s t : State, step s = .next t → s.pending.head? ≠ some .reset →
    s.pending.head? ≠ some (.writeReg 0 0x0001) → s.pending.head? ≠ some (.writeReg 0 0x0002) →
    ((s.pending.head? = some (.writeReg 0 0x0005) ∨ s.pending.head? = some (.writeReg 0 0x0006)) →
      t.result ≠ 0 ∧ t.result ≠ 5) →
    t.crc = s.crc

/-! ## Host transactions -/

/-- R23, R27, R35, R36, R62: what a register read returns; it changes nothing. The transaction list, the reply
and the draw counter are the model's own (log entries 2, 3 and 4); the premise rules out the states of log entry 9. -/
def Obligations.RegisterReadsFollowMap : Prop :=
  ∀ (s : State) (r : BitVec 4) (rest : List HostTx), s.pending = .readReg r :: rest → AddressHeld s →
    ∃ t v, step s = .next t ∧ t.reply = .half v ∧ t.pending = rest ∧ t.draws = s.draws ∧ BlockKept s t ∧
      (r = 0 → v = s.cmd) ∧ (r = 1 → v.toNat = s.ilen.toNat) ∧ (r = 2 → v = s.ckexp) ∧
      (r = 3 → v.toNat =
        (if s.result = 0 then 1 else 0) + (if s.matched then 2 else 0) + (if s.avalid then 4 else 0)) ∧
      (r = 4 → v.toNat = s.result.toNat) ∧ (r = 5 → v = s.erroff) ∧ (r = 6 → v.toNat = s.errbyte.toNat) ∧
      (r = 7 → v = s.crc) ∧ (r = 8 → v.toNat = s.olen.toNat) ∧ (r = 9 → v.toNat = s.kind.toNat) ∧
      (r = 10 → (s.avalid = false → v = 0x0000) ∧
        (∀ bs, heldAddress s = some bs → v.toNat = (bs.getD 2 0x00).toNat)) ∧
      (11 ≤ r.toNat → v = 0x0000)

/-- R62, R63: what a write of a register other than CMD does; read-only registers and reserved numbers ignore it.
The transaction list, the reply and the draw counter are the model's own (log entries 2, 3 and 4). -/
def Obligations.RegisterWritesFollowMap : Prop :=
  ∀ (s : State) (r : BitVec 4) (v : Half) (rest : List HostTx), s.pending = .writeReg r v :: rest → r ≠ 0 →
    ∃ t, step s = .next t ∧ t.pending = rest ∧ t.reply = .nothing ∧ t.draws = s.draws ∧
      t.cmd = s.cmd ∧ t.ilen.toNat = (if r = 1 then v.toNat % 256 else s.ilen.toNat) ∧
      t.ckexp = (if r = 2 then v else s.ckexp) ∧
      (∀ i, t.ibuf.read i = s.ibuf.read i) ∧ ResultsKept s t

/-- R64: one byte of IBUF changes and nothing else. The transaction list, the reply and the draw counter are the
model's own (log entries 2, 3 and 4). -/
def Obligations.IbufWriteChangesOneByte : Prop :=
  ∀ (s : State) (i : BitVec 8) (b : Byte) (rest : List HostTx), s.pending = .writeIbuf i b :: rest →
    ∃ t, step s = .next t ∧ t.pending = rest ∧ t.reply = .nothing ∧ t.draws = s.draws ∧
      t.ibuf.read i.toNat = some b ∧ (∀ j, j ≠ i.toNat → t.ibuf.read j = s.ibuf.read j) ∧
      t.cmd = s.cmd ∧ t.ilen = s.ilen ∧ t.ckexp = s.ckexp ∧ ResultsKept s t

/-- R65, R76: a read of IBUF returns the byte written last, or a fresh free value (log entry 1). The
transaction list, the reply and the draw counter are the model's own (log entries 2, 3 and 4). -/
def Obligations.IbufReadReturnsWritten : Prop :=
  ∀ (s : State) (i : BitVec 8) (rest : List HostTx), s.pending = .readIbuf i :: rest →
    ∃ t, step s = .next t ∧ t.pending = rest ∧ BlockKept s t ∧
      (∀ b, s.ibuf.read i.toNat = some b → t.reply = .byte b ∧ t.draws = s.draws) ∧
      (s.ibuf.read i.toNat = none → t.reply = .byte (Config.freeByte s.draws) ∧ t.draws = s.draws + 1)

/-- R61, R66, R76: a read of OBUF returns the byte emitted at an index below OLEN, and a fresh free value at every
other index (log entry 1). The transaction list, the reply and the draw counter are the model's own (log entries 2,
3 and 4). -/
def Obligations.ObufReadReturnsEmitted : Prop :=
  ∀ (s : State) (i : BitVec 9) (rest : List HostTx), s.pending = .readObuf i :: rest → OutputSpecified s →
    ∃ t, step s = .next t ∧ t.pending = rest ∧ BlockKept s t ∧
      (i.toNat < s.olen.toNat → ∃ b, s.obuf.read i.toNat = some b ∧ t.reply = .byte b ∧ t.draws = s.draws) ∧
      (s.olen.toNat ≤ i.toNat → t.reply = .byte (Config.freeByte s.draws) ∧ t.draws = s.draws + 1)

/-- R61, R67, R76: a read of ADDR returns a byte of the held address, and a fresh free value when none is held or
at index 48 and above (log entry 1). The transaction list, the reply and the draw counter are the model's own (log
entries 2, 3 and 4). -/
def Obligations.AddrReadReturnsHeld : Prop :=
  ∀ (s : State) (i : BitVec 6) (rest : List HostTx), s.pending = .readAddr i :: rest → AddressHeld s →
    ∃ t, step s = .next t ∧ t.pending = rest ∧ BlockKept s t ∧
      (s.avalid = true → i.toNat < 48 → ∃ bs b, heldAddress s = some bs ∧ bs[i.toNat]? = some b ∧
        t.reply = .byte b ∧ t.draws = s.draws) ∧
      (s.avalid = false ∨ 48 ≤ i.toNat → t.reply = .byte (Config.freeByte s.draws) ∧ t.draws = s.draws + 1)

/-- R240, R43: reset, from any state. The host's transactions still to come stay, and the free values already
drawn stay drawn; the list, the reply and the draw counter are the model's own (log entries 2, 3 and 4). -/
def Obligations.ResetClearsBlock : Prop :=
  ∀ (s : State) (rest : List HostTx), s.pending = .reset :: rest →
    ∃ t, step s = .next t ∧
      t.cmd = 0x0000 ∧ t.ilen = 0 ∧ t.ckexp = 0x0000 ∧ t.result = 0 ∧ statusView t = 0x0001 ∧
      t.erroff = 0xFFFF ∧ t.errbyte = 0x00 ∧ t.crc = 0x1D0F ∧ t.olen = 0 ∧ t.kind = 0x00 ∧
      t.matched = false ∧ t.avalid = false ∧ readReg t .akind = 0x0000 ∧
      (∀ i, t.ibuf.read i = none ∧ t.obuf.read i = none ∧ t.addr.read i = none) ∧
      t.pending = rest ∧ t.reply = .nothing ∧ t.draws = s.draws

/-- R43: the values of the reset state itself. -/
def Obligations.ResetStateValues : Prop :=
  State.reset.cmd = 0x0000 ∧ State.reset.ilen = 0 ∧ State.reset.ckexp = 0x0000 ∧ State.reset.result = 0 ∧
  statusView State.reset = 0x0001 ∧ State.reset.erroff = 0xFFFF ∧ State.reset.errbyte = 0x00 ∧
  State.reset.crc = 0x1D0F ∧ State.reset.olen = 0 ∧ State.reset.kind = 0x00 ∧
  readReg State.reset .akind = 0x0000 ∧
  ∀ i, State.reset.ibuf.read i = none ∧ State.reset.obuf.read i = none ∧ State.reset.addr.read i = none

/-- R105: the transactions of `ibuf.s` and `ibuf.x` place their bytes as the input, and no result changes.
A text is given as its bytes (log entry 16); the transaction list and the draw counter are the model's own (log
entries 2 and 3). -/
def Obligations.IbufStatementLoadsInput : Prop :=
  ∀ (s : State) (bs : List Byte), bs.length ≤ Config.ilenMax →
    ∃ t, Host.Core.run Sys2Proof.core (bs.length + 1) (withScript [.ibuf bs] s) = .next t ∧
      inputBytes t = bs ∧ t.ilen.toNat = bs.length ∧ t.pending = s.pending ∧ t.draws = s.draws ∧
      (∀ j, bs.length ≤ j → t.ibuf.read j = s.ibuf.read j) ∧ t.cmd = s.cmd ∧ t.ckexp = s.ckexp ∧ ResultsKept s t

/-! ## Invariants -/

/-- R44 (a) to (e): every step keeps the registers legal. -/
def Obligations.StepKeepsRegistersLegal : Prop :=
  ∀ s t : State, RegistersLegal s → step s = .next t → RegistersLegal t

/-- R38, R60: every step keeps the buffers in canonical form and inside their capacities, with exactly the bytes of
OBUF below OLEN specified (log entries 6 and 7 for what a listed byte stands for). -/
def Obligations.StepKeepsBuffersCanonical : Prop :=
  ∀ s t : State, BuffersCanonical s → OutputSpecified s → step s = .next t →
    BuffersCanonical t ∧ OutputSpecified t

/-- R188: every step keeps the held address valid. -/
def Obligations.StepKeepsAddressHeld : Prop :=
  ∀ s t : State, AddressHeld s → step s = .next t → AddressHeld t

/-- The invariants hold at reset. -/
def Obligations.ResetMeetsInvariants : Prop :=
  RegistersLegal State.reset ∧ BuffersCanonical State.reset ∧ OutputSpecified State.reset ∧ AddressHeld State.reset

end
end

