-- ==== Sys2Proof/Laws/Memory.lean ====
section
/-! SUPPORT. The laws of a buffer: what a write leaves and changes, that every operation keeps the canonical form,
and what a run of reads gives. Citing these, no proof unfolds a buffer operation. -/

namespace Sys2Proof.Machine

open Sys2Proof

/-! ## Reading after writing -/

@[simp] theorem Memory.read_nil (i : Nat) : Memory.read [] i = none := rfl

/-- Everything one write does to the reads: the byte written at its index, every other index as it was. -/
theorem Memory.read_write (m : Memory) (i j : Nat) (v : Byte) :
    (m.write i v).read j = if j = i then some v else m.read j := by
  induction m with
  | nil =>
    by_cases h : j = i
    · simp [Memory.write, Memory.read, h]
    · simp [Memory.write, Memory.read, h, Ne.symm h]
  | cons c m ih =>
    obtain ⟨a, b⟩ := c
    by_cases h1 : i < a
    · by_cases h : j = i
      · simp [Memory.write, Memory.read, h1, h]
      · simp [Memory.write, Memory.read, h1, h, Ne.symm h]
    · by_cases h2 : i = a
      · subst h2
        by_cases h : j = i
        · simp [Memory.write, Memory.read, h]
        · simp [Memory.write, Memory.read, h, Ne.symm h]
      · by_cases h3 : a = j
        · subst h3
          simp [Memory.write, Memory.read, h1, h2, Ne.symm h2]
        · simp [Memory.write, Memory.read, h1, h2, h3, ih]

@[simp] theorem Memory.read_write_same (m : Memory) (i : Nat) (v : Byte) : (m.write i v).read i = some v := by
  simp [Memory.read_write]

theorem Memory.read_write_other (m : Memory) {i j : Nat} (v : Byte) (h : j ≠ i) :
    (m.write i v).read j = m.read j := by
  simp [Memory.read_write, h]

/-- Everything a run of writes does to the reads. -/
theorem Memory.read_writeRun (m : Memory) (bs : List Byte) (i j : Nat) :
    (m.writeRun i bs).read j = if i ≤ j ∧ j < i + bs.length then bs[j - i]? else m.read j := by
  induction bs generalizing i with
  | nil => simp [Memory.writeRun]
  | cons b bs ih =>
    rw [Memory.writeRun, Memory.read_write, ih]
    by_cases h : j = i
    · simp [h]
    · by_cases h2 : i ≤ j ∧ j < i + (b :: bs).length
      · have h3 : i + 1 ≤ j ∧ j < i + 1 + bs.length := by
          simp only [List.length_cons] at h2; omega
        have h4 : j - i = (j - (i + 1)) + 1 := by omega
        rw [if_neg h, if_pos h3, if_pos h2, h4, List.getElem?_cons_succ]
      · have h3 : ¬(i + 1 ≤ j ∧ j < i + 1 + bs.length) := by
          simp only [List.length_cons] at h2; omega
        rw [if_neg h, if_neg h3, if_neg h2]

/-- The emission into an empty buffer: index `j` reads as element `j` of the sequence. -/
@[simp] theorem Memory.read_writeRun_nil (bs : List Byte) (j : Nat) :
    (Memory.writeRun [] 0 bs).read j = bs[j]? := by
  rw [Memory.read_writeRun]
  by_cases h : j < bs.length
  · simp [h]
  · simp [h]

/-! ## The canonical form is kept -/

theorem Memory.mem_write {m : Memory} {i : Nat} {v : Byte} {c : Host.Cell} (h : c ∈ m.write i v) :
    c = (i, v) ∨ c ∈ m := by
  induction m with
  | nil => simpa [Memory.write] using h
  | cons d m ih =>
    obtain ⟨a, b⟩ := d
    by_cases h1 : i < a
    · simpa [Memory.write, h1] using h
    · by_cases h2 : i = a
      · simp only [Memory.write, h2, if_true, if_false, lt_self_iff_false, List.mem_cons] at h
        rcases h with h | h
        · exact .inl (by rw [h, h2])
        · exact .inr (List.mem_cons_of_mem _ h)
      · simp only [Memory.write, h1, h2, if_false, List.mem_cons] at h
        rcases h with h | h
        · exact .inr (by simp [h])
        · rcases ih h with h | h
          · exact .inl h
          · exact .inr (List.mem_cons_of_mem _ h)

theorem Memory.write_wf {m : Memory} (i : Nat) (v : Byte) (h : m.wf) : (m.write i v).wf := by
  induction m with
  | nil => simp [Memory.write]
  | cons d m ih =>
    obtain ⟨a, b⟩ := d
    have hm := List.pairwise_cons.1 h
    by_cases h1 : i < a
    · simp only [Memory.write, h1, if_true]
      refine List.pairwise_cons.2 ⟨?_, h⟩
      intro c hc
      rcases List.mem_cons.1 hc with hc | hc
      · simpa [hc] using h1
      · exact lt_trans h1 (hm.1 c hc)
    · by_cases h2 : i = a
      · subst h2
        simp only [Memory.write, lt_self_iff_false, if_false, if_true]
        exact List.pairwise_cons.2 ⟨hm.1, hm.2⟩
      · simp only [Memory.write, h1, h2, if_false]
        refine List.pairwise_cons.2 ⟨?_, ih hm.2⟩
        intro c hc
        rcases Memory.mem_write hc with hc | hc
        · simp only [hc]; omega
        · exact hm.1 c hc

theorem Memory.write_within {m : Memory} {i n : Nat} (v : Byte) (hi : i < n) (h : m.within n) :
    (m.write i v).within n := by
  intro c hc
  rcases Memory.mem_write hc with hc | hc
  · simpa [hc] using hi
  · exact h c hc

theorem Memory.writeRun_wf {m : Memory} (bs : List Byte) (i : Nat) (h : m.wf) : (m.writeRun i bs).wf := by
  induction bs generalizing i with
  | nil => exact h
  | cons b bs ih => exact Memory.write_wf i b (ih (i + 1))

theorem Memory.writeRun_within {m : Memory} (bs : List Byte) {i n : Nat} (hi : i + bs.length ≤ n)
    (h : m.within n) : (m.writeRun i bs).within n := by
  induction bs generalizing i with
  | nil => exact h
  | cons b bs ih =>
    simp only [List.length_cons] at hi
    exact Memory.write_within b (by omega) (ih (by omega))

@[simp] theorem Memory.nil_wf : Memory.wf [] := List.Pairwise.nil

@[simp] theorem Memory.nil_within (n : Nat) : Memory.within [] n := by simp [Memory.within]

/-- The buffers of the reset state are canonical. -/
theorem reset_buffers_canonical : State.reset.ibuf.wf ∧ State.reset.obuf.wf ∧ State.reset.addr.wf := by
  simp [State.reset]

/-! ## Runs of reads -/

/-- A run of reads succeeds with `bs` exactly when the buffer holds `bs` from its first index on. -/
theorem Memory.readRun_eq_some (m : Memory) (i n : Nat) (bs : List Byte) :
    m.readRun i n = some bs ↔ bs.length = n ∧ ∀ k, k < n → m.read (i + k) = bs[k]? := by
  induction n generalizing i bs with
  | zero => cases bs <;> simp [Memory.readRun]
  | succ n ih =>
    rw [Memory.readRun]
    constructor
    · intro h
      split at h
      · rename_i b bs' hb hbs
        obtain ⟨hl, hr⟩ := (ih (i + 1) bs').1 hbs
        cases h
        refine ⟨by simp [hl], ?_⟩
        intro k hk
        cases k with
        | zero => simpa using hb
        | succ k =>
          have := hr k (by omega)
          rw [List.getElem?_cons_succ, ← this]
          congr 1; omega
      · cases h
    · rintro ⟨hl, hr⟩
      cases bs with
      | nil => simp at hl
      | cons b bs =>
        have h0 : m.read i = some b := by simpa using hr 0 (by omega)
        have h1 : m.readRun (i + 1) n = some bs := by
          refine (ih (i + 1) bs).2 ⟨by simpa using hl, ?_⟩
          intro k hk
          have := hr (k + 1) (by omega)
          rw [List.getElem?_cons_succ] at this
          rw [← this]; congr 1; omega
        rw [h0, h1]

/-! ## Free draws -/

/-- Everything `fetchByte` can do: a specified byte and no draw, or a fresh free value and one draw. -/
theorem fetchByte_cases (m : Memory) (i k : Nat) :
    (∃ b, m.read i = some b ∧ fetchByte m i k = (b, k)) ∨
    (m.read i = none ∧ fetchByte m i k = (Config.freeByte k, k + 1)) := by
  cases h : m.read i with
  | some b => exact .inl ⟨b, rfl, by simp [fetchByte, h]⟩
  | none => exact .inr ⟨rfl, by simp [fetchByte, h]⟩

theorem fetchByte_written {m : Memory} {i : Nat} {b : Byte} (k : Nat) (h : m.read i = some b) :
    fetchByte m i k = (b, k) := by
  simp [fetchByte, h]

theorem fetchByte_unwritten {m : Memory} {i : Nat} (k : Nat) (h : m.read i = none) :
    fetchByte m i k = (Config.freeByte k, k + 1) := by
  simp [fetchByte, h]

@[simp] theorem fetchRun_length (m : Memory) (i n k : Nat) : (fetchRun m i n k).1.length = n := by
  induction n generalizing i k with
  | zero => rfl
  | succ n ih => simp [fetchRun, ih]

/-- A run of fetches depends only on the bytes it reads. -/
theorem fetchRun_congr {m m' : Memory} {i n : Nat} (k : Nat)
    (h : ∀ j, j < n → m.read (i + j) = m'.read (i + j)) : fetchRun m i n k = fetchRun m' i n k := by
  induction n generalizing i k with
  | zero => rfl
  | succ n ih =>
    have h0 : m.read i = m'.read i := h 0 (by omega)
    have hb : fetchByte m i k = fetchByte m' i k := by simp only [fetchByte, h0]
    have hr := ih (i := i + 1) (fetchByte m i k).2 (fun j hj => by
      have := h (j + 1) (by omega)
      rwa [show i + (j + 1) = i + 1 + j by omega] at this)
    simp only [fetchRun, hb] at hr ⊢
    rw [hr]

/-- A run of fetches over specified bytes draws nothing and gives them. -/
theorem fetchRun_written {m : Memory} {i : Nat} {bs : List Byte} (k : Nat)
    (h : ∀ j, j < bs.length → m.read (i + j) = bs[j]?) : fetchRun m i bs.length k = (bs, k) := by
  induction bs generalizing i k with
  | nil => rfl
  | cons b bs ih =>
    have h0 : m.read i = some b := by simpa using h 0 (by simp)
    have hr := ih (i := i + 1) k (fun j hj => by
      have := h (j + 1) (by simpa using hj)
      rw [List.getElem?_cons_succ] at this
      rw [← this]; congr 1; omega)
    simp only [List.length_cons, fetchRun, fetchByte_written k h0, hr]

end Sys2Proof.Machine
end

