-- ==== Sys2Proof/Laws/State.lean ====
section
/-! SUPPORT. One lemma per field per update of State, so that no proof unfolds a record update. -/

namespace Sys2Proof.Machine

open Sys2Proof

/-! ## prologue -/

@[simp] theorem prologue_cmd (s : State) : (prologue s).cmd = s.cmd := rfl
@[simp] theorem prologue_ilen (s : State) : (prologue s).ilen = s.ilen := rfl
@[simp] theorem prologue_ckexp (s : State) : (prologue s).ckexp = s.ckexp := rfl
@[simp] theorem prologue_result (s : State) : (prologue s).result = 0 := rfl
@[simp] theorem prologue_erroff (s : State) : (prologue s).erroff = 0xFFFF := rfl
@[simp] theorem prologue_errbyte (s : State) : (prologue s).errbyte = 0x00 := rfl
@[simp] theorem prologue_crc (s : State) : (prologue s).crc = s.crc := rfl
@[simp] theorem prologue_olen (s : State) : (prologue s).olen = 0 := rfl
@[simp] theorem prologue_kind (s : State) : (prologue s).kind = 0x00 := rfl
@[simp] theorem prologue_matched (s : State) : (prologue s).matched = false := rfl
@[simp] theorem prologue_avalid (s : State) : (prologue s).avalid = s.avalid := rfl
@[simp] theorem prologue_ibuf (s : State) : (prologue s).ibuf = s.ibuf := rfl
@[simp] theorem prologue_obuf (s : State) : (prologue s).obuf = [] := rfl
@[simp] theorem prologue_addr (s : State) : (prologue s).addr = s.addr := rfl
@[simp] theorem prologue_pending (s : State) : (prologue s).pending = s.pending := rfl
@[simp] theorem prologue_reply (s : State) : (prologue s).reply = s.reply := rfl
@[simp] theorem prologue_draws (s : State) : (prologue s).draws = s.draws := rfl

/-! ## latchCommand -/

@[simp] theorem latchCommand_cmd (w : Half) (s : State) : (latchCommand w s).cmd = w := rfl
@[simp] theorem latchCommand_ilen (w : Half) (s : State) : (latchCommand w s).ilen = s.ilen := rfl
@[simp] theorem latchCommand_ckexp (w : Half) (s : State) : (latchCommand w s).ckexp = s.ckexp := rfl
@[simp] theorem latchCommand_result (w : Half) (s : State) : (latchCommand w s).result = s.result := rfl
@[simp] theorem latchCommand_erroff (w : Half) (s : State) : (latchCommand w s).erroff = s.erroff := rfl
@[simp] theorem latchCommand_errbyte (w : Half) (s : State) : (latchCommand w s).errbyte = s.errbyte := rfl
@[simp] theorem latchCommand_crc (w : Half) (s : State) : (latchCommand w s).crc = s.crc := rfl
@[simp] theorem latchCommand_olen (w : Half) (s : State) : (latchCommand w s).olen = s.olen := rfl
@[simp] theorem latchCommand_kind (w : Half) (s : State) : (latchCommand w s).kind = s.kind := rfl
@[simp] theorem latchCommand_matched (w : Half) (s : State) : (latchCommand w s).matched = s.matched := rfl
@[simp] theorem latchCommand_avalid (w : Half) (s : State) : (latchCommand w s).avalid = s.avalid := rfl
@[simp] theorem latchCommand_ibuf (w : Half) (s : State) : (latchCommand w s).ibuf = s.ibuf := rfl
@[simp] theorem latchCommand_obuf (w : Half) (s : State) : (latchCommand w s).obuf = s.obuf := rfl
@[simp] theorem latchCommand_addr (w : Half) (s : State) : (latchCommand w s).addr = s.addr := rfl
@[simp] theorem latchCommand_pending (w : Half) (s : State) : (latchCommand w s).pending = s.pending := rfl
@[simp] theorem latchCommand_reply (w : Half) (s : State) : (latchCommand w s).reply = s.reply := rfl
@[simp] theorem latchCommand_draws (w : Half) (s : State) : (latchCommand w s).draws = s.draws := rfl

/-! ## setCrc -/

@[simp] theorem setCrc_cmd (v : Half) (s : State) : (setCrc v s).cmd = s.cmd := rfl
@[simp] theorem setCrc_ilen (v : Half) (s : State) : (setCrc v s).ilen = s.ilen := rfl
@[simp] theorem setCrc_ckexp (v : Half) (s : State) : (setCrc v s).ckexp = s.ckexp := rfl
@[simp] theorem setCrc_result (v : Half) (s : State) : (setCrc v s).result = s.result := rfl
@[simp] theorem setCrc_erroff (v : Half) (s : State) : (setCrc v s).erroff = s.erroff := rfl
@[simp] theorem setCrc_errbyte (v : Half) (s : State) : (setCrc v s).errbyte = s.errbyte := rfl
@[simp] theorem setCrc_crc (v : Half) (s : State) : (setCrc v s).crc = v := rfl
@[simp] theorem setCrc_olen (v : Half) (s : State) : (setCrc v s).olen = s.olen := rfl
@[simp] theorem setCrc_kind (v : Half) (s : State) : (setCrc v s).kind = s.kind := rfl
@[simp] theorem setCrc_matched (v : Half) (s : State) : (setCrc v s).matched = s.matched := rfl
@[simp] theorem setCrc_avalid (v : Half) (s : State) : (setCrc v s).avalid = s.avalid := rfl
@[simp] theorem setCrc_ibuf (v : Half) (s : State) : (setCrc v s).ibuf = s.ibuf := rfl
@[simp] theorem setCrc_obuf (v : Half) (s : State) : (setCrc v s).obuf = s.obuf := rfl
@[simp] theorem setCrc_addr (v : Half) (s : State) : (setCrc v s).addr = s.addr := rfl
@[simp] theorem setCrc_pending (v : Half) (s : State) : (setCrc v s).pending = s.pending := rfl
@[simp] theorem setCrc_reply (v : Half) (s : State) : (setCrc v s).reply = s.reply := rfl
@[simp] theorem setCrc_draws (v : Half) (s : State) : (setCrc v s).draws = s.draws := rfl

/-! ## setMatch -/

@[simp] theorem setMatch_cmd (b : Bool) (s : State) : (setMatch b s).cmd = s.cmd := rfl
@[simp] theorem setMatch_ilen (b : Bool) (s : State) : (setMatch b s).ilen = s.ilen := rfl
@[simp] theorem setMatch_ckexp (b : Bool) (s : State) : (setMatch b s).ckexp = s.ckexp := rfl
@[simp] theorem setMatch_result (b : Bool) (s : State) : (setMatch b s).result = s.result := rfl
@[simp] theorem setMatch_erroff (b : Bool) (s : State) : (setMatch b s).erroff = s.erroff := rfl
@[simp] theorem setMatch_errbyte (b : Bool) (s : State) : (setMatch b s).errbyte = s.errbyte := rfl
@[simp] theorem setMatch_crc (b : Bool) (s : State) : (setMatch b s).crc = s.crc := rfl
@[simp] theorem setMatch_olen (b : Bool) (s : State) : (setMatch b s).olen = s.olen := rfl
@[simp] theorem setMatch_kind (b : Bool) (s : State) : (setMatch b s).kind = s.kind := rfl
@[simp] theorem setMatch_matched (b : Bool) (s : State) : (setMatch b s).matched = b := rfl
@[simp] theorem setMatch_avalid (b : Bool) (s : State) : (setMatch b s).avalid = s.avalid := rfl
@[simp] theorem setMatch_ibuf (b : Bool) (s : State) : (setMatch b s).ibuf = s.ibuf := rfl
@[simp] theorem setMatch_obuf (b : Bool) (s : State) : (setMatch b s).obuf = s.obuf := rfl
@[simp] theorem setMatch_addr (b : Bool) (s : State) : (setMatch b s).addr = s.addr := rfl
@[simp] theorem setMatch_pending (b : Bool) (s : State) : (setMatch b s).pending = s.pending := rfl
@[simp] theorem setMatch_reply (b : Bool) (s : State) : (setMatch b s).reply = s.reply := rfl
@[simp] theorem setMatch_draws (b : Bool) (s : State) : (setMatch b s).draws = s.draws := rfl

/-! ## emit -/

@[simp] theorem emit_cmd (bs : List Byte) (s : State) : (emit bs s).cmd = s.cmd := rfl
@[simp] theorem emit_ilen (bs : List Byte) (s : State) : (emit bs s).ilen = s.ilen := rfl
@[simp] theorem emit_ckexp (bs : List Byte) (s : State) : (emit bs s).ckexp = s.ckexp := rfl
@[simp] theorem emit_result (bs : List Byte) (s : State) : (emit bs s).result = s.result := rfl
@[simp] theorem emit_erroff (bs : List Byte) (s : State) : (emit bs s).erroff = s.erroff := rfl
@[simp] theorem emit_errbyte (bs : List Byte) (s : State) : (emit bs s).errbyte = s.errbyte := rfl
@[simp] theorem emit_crc (bs : List Byte) (s : State) : (emit bs s).crc = s.crc := rfl
@[simp] theorem emit_olen (bs : List Byte) (s : State) : (emit bs s).olen = BitVec.ofNat 9 bs.length := rfl
@[simp] theorem emit_kind (bs : List Byte) (s : State) : (emit bs s).kind = s.kind := rfl
@[simp] theorem emit_matched (bs : List Byte) (s : State) : (emit bs s).matched = s.matched := rfl
@[simp] theorem emit_avalid (bs : List Byte) (s : State) : (emit bs s).avalid = s.avalid := rfl
@[simp] theorem emit_ibuf (bs : List Byte) (s : State) : (emit bs s).ibuf = s.ibuf := rfl
@[simp] theorem emit_obuf (bs : List Byte) (s : State) : (emit bs s).obuf = s.obuf.writeRun 0 bs := rfl
@[simp] theorem emit_addr (bs : List Byte) (s : State) : (emit bs s).addr = s.addr := rfl
@[simp] theorem emit_pending (bs : List Byte) (s : State) : (emit bs s).pending = s.pending := rfl
@[simp] theorem emit_reply (bs : List Byte) (s : State) : (emit bs s).reply = s.reply := rfl
@[simp] theorem emit_draws (bs : List Byte) (s : State) : (emit bs s).draws = s.draws := rfl

/-! ## holdAddress -/

@[simp] theorem holdAddress_cmd (bs : List Byte) (s : State) : (holdAddress bs s).cmd = s.cmd := rfl
@[simp] theorem holdAddress_ilen (bs : List Byte) (s : State) : (holdAddress bs s).ilen = s.ilen := rfl
@[simp] theorem holdAddress_ckexp (bs : List Byte) (s : State) : (holdAddress bs s).ckexp = s.ckexp := rfl
@[simp] theorem holdAddress_result (bs : List Byte) (s : State) : (holdAddress bs s).result = s.result := rfl
@[simp] theorem holdAddress_erroff (bs : List Byte) (s : State) : (holdAddress bs s).erroff = s.erroff := rfl
@[simp] theorem holdAddress_errbyte (bs : List Byte) (s : State) : (holdAddress bs s).errbyte = s.errbyte := rfl
@[simp] theorem holdAddress_crc (bs : List Byte) (s : State) : (holdAddress bs s).crc = s.crc := rfl
@[simp] theorem holdAddress_olen (bs : List Byte) (s : State) : (holdAddress bs s).olen = s.olen := rfl
@[simp] theorem holdAddress_kind (bs : List Byte) (s : State) : (holdAddress bs s).kind = s.kind := rfl
@[simp] theorem holdAddress_matched (bs : List Byte) (s : State) : (holdAddress bs s).matched = s.matched := rfl
@[simp] theorem holdAddress_avalid (bs : List Byte) (s : State) : (holdAddress bs s).avalid = true := rfl
@[simp] theorem holdAddress_ibuf (bs : List Byte) (s : State) : (holdAddress bs s).ibuf = s.ibuf := rfl
@[simp] theorem holdAddress_obuf (bs : List Byte) (s : State) : (holdAddress bs s).obuf = s.obuf := rfl
@[simp] theorem holdAddress_addr (bs : List Byte) (s : State) : (holdAddress bs s).addr = s.addr.writeRun 0 bs := rfl
@[simp] theorem holdAddress_pending (bs : List Byte) (s : State) : (holdAddress bs s).pending = s.pending := rfl
@[simp] theorem holdAddress_reply (bs : List Byte) (s : State) : (holdAddress bs s).reply = s.reply := rfl
@[simp] theorem holdAddress_draws (bs : List Byte) (s : State) : (holdAddress bs s).draws = s.draws := rfl

/-! ## consumeInput -/

@[simp] theorem consumeInput_cmd (s : State) : (consumeInput s).cmd = s.cmd := rfl
@[simp] theorem consumeInput_ilen (s : State) : (consumeInput s).ilen = s.ilen := rfl
@[simp] theorem consumeInput_ckexp (s : State) : (consumeInput s).ckexp = s.ckexp := rfl
@[simp] theorem consumeInput_result (s : State) : (consumeInput s).result = s.result := rfl
@[simp] theorem consumeInput_erroff (s : State) : (consumeInput s).erroff = s.erroff := rfl
@[simp] theorem consumeInput_errbyte (s : State) : (consumeInput s).errbyte = s.errbyte := rfl
@[simp] theorem consumeInput_crc (s : State) : (consumeInput s).crc = s.crc := rfl
@[simp] theorem consumeInput_olen (s : State) : (consumeInput s).olen = s.olen := rfl
@[simp] theorem consumeInput_kind (s : State) : (consumeInput s).kind = s.kind := rfl
@[simp] theorem consumeInput_matched (s : State) : (consumeInput s).matched = s.matched := rfl
@[simp] theorem consumeInput_avalid (s : State) : (consumeInput s).avalid = s.avalid := rfl
@[simp] theorem consumeInput_ibuf (s : State) : (consumeInput s).ibuf = s.ibuf := rfl
@[simp] theorem consumeInput_obuf (s : State) : (consumeInput s).obuf = s.obuf := rfl
@[simp] theorem consumeInput_addr (s : State) : (consumeInput s).addr = s.addr := rfl
@[simp] theorem consumeInput_pending (s : State) : (consumeInput s).pending = s.pending := rfl
@[simp] theorem consumeInput_reply (s : State) : (consumeInput s).reply = s.reply := rfl
@[simp] theorem consumeInput_draws (s : State) : (consumeInput s).draws = drawsAfterInput s := rfl

/-! ## beginCommand -/

@[simp] theorem beginCommand_cmd (s : State) : (beginCommand s).cmd = s.cmd := rfl
@[simp] theorem beginCommand_ilen (s : State) : (beginCommand s).ilen = s.ilen := rfl
@[simp] theorem beginCommand_ckexp (s : State) : (beginCommand s).ckexp = s.ckexp := rfl
@[simp] theorem beginCommand_result (s : State) : (beginCommand s).result = 0 := rfl
@[simp] theorem beginCommand_erroff (s : State) : (beginCommand s).erroff = 0xFFFF := rfl
@[simp] theorem beginCommand_errbyte (s : State) : (beginCommand s).errbyte = 0x00 := rfl
@[simp] theorem beginCommand_crc (s : State) : (beginCommand s).crc = s.crc := rfl
@[simp] theorem beginCommand_olen (s : State) : (beginCommand s).olen = 0 := rfl
@[simp] theorem beginCommand_kind (s : State) : (beginCommand s).kind = 0x00 := rfl
@[simp] theorem beginCommand_matched (s : State) : (beginCommand s).matched = false := rfl
@[simp] theorem beginCommand_avalid (s : State) : (beginCommand s).avalid = s.avalid := rfl
@[simp] theorem beginCommand_ibuf (s : State) : (beginCommand s).ibuf = s.ibuf := rfl
@[simp] theorem beginCommand_obuf (s : State) : (beginCommand s).obuf = [] := rfl
@[simp] theorem beginCommand_addr (s : State) : (beginCommand s).addr = s.addr := rfl
@[simp] theorem beginCommand_pending (s : State) : (beginCommand s).pending = s.pending := rfl
@[simp] theorem beginCommand_reply (s : State) : (beginCommand s).reply = s.reply := rfl
@[simp] theorem beginCommand_draws (s : State) : (beginCommand s).draws = drawsAfterInput s := rfl

/-! ## takeTransaction -/

@[simp] theorem takeTransaction_cmd (rest : List HostTx) (s : State) : (takeTransaction rest s).cmd = s.cmd := rfl
@[simp] theorem takeTransaction_ilen (rest : List HostTx) (s : State) : (takeTransaction rest s).ilen = s.ilen := rfl
@[simp] theorem takeTransaction_ckexp (rest : List HostTx) (s : State) : (takeTransaction rest s).ckexp = s.ckexp := rfl
@[simp] theorem takeTransaction_result (rest : List HostTx) (s : State) : (takeTransaction rest s).result = s.result := rfl
@[simp] theorem takeTransaction_erroff (rest : List HostTx) (s : State) : (takeTransaction rest s).erroff = s.erroff := rfl
@[simp] theorem takeTransaction_errbyte (rest : List HostTx) (s : State) : (takeTransaction rest s).errbyte = s.errbyte := rfl
@[simp] theorem takeTransaction_crc (rest : List HostTx) (s : State) : (takeTransaction rest s).crc = s.crc := rfl
@[simp] theorem takeTransaction_olen (rest : List HostTx) (s : State) : (takeTransaction rest s).olen = s.olen := rfl
@[simp] theorem takeTransaction_kind (rest : List HostTx) (s : State) : (takeTransaction rest s).kind = s.kind := rfl
@[simp] theorem takeTransaction_matched (rest : List HostTx) (s : State) : (takeTransaction rest s).matched = s.matched := rfl
@[simp] theorem takeTransaction_avalid (rest : List HostTx) (s : State) : (takeTransaction rest s).avalid = s.avalid := rfl
@[simp] theorem takeTransaction_ibuf (rest : List HostTx) (s : State) : (takeTransaction rest s).ibuf = s.ibuf := rfl
@[simp] theorem takeTransaction_obuf (rest : List HostTx) (s : State) : (takeTransaction rest s).obuf = s.obuf := rfl
@[simp] theorem takeTransaction_addr (rest : List HostTx) (s : State) : (takeTransaction rest s).addr = s.addr := rfl
@[simp] theorem takeTransaction_pending (rest : List HostTx) (s : State) : (takeTransaction rest s).pending = rest := rfl
@[simp] theorem takeTransaction_reply (rest : List HostTx) (s : State) : (takeTransaction rest s).reply = .nothing := rfl
@[simp] theorem takeTransaction_draws (rest : List HostTx) (s : State) : (takeTransaction rest s).draws = s.draws := rfl

/-! ## returnByte -/

@[simp] theorem returnByte_cmd (x : Byte × Nat) (s : State) : (returnByte x s).cmd = s.cmd := rfl
@[simp] theorem returnByte_ilen (x : Byte × Nat) (s : State) : (returnByte x s).ilen = s.ilen := rfl
@[simp] theorem returnByte_ckexp (x : Byte × Nat) (s : State) : (returnByte x s).ckexp = s.ckexp := rfl
@[simp] theorem returnByte_result (x : Byte × Nat) (s : State) : (returnByte x s).result = s.result := rfl
@[simp] theorem returnByte_erroff (x : Byte × Nat) (s : State) : (returnByte x s).erroff = s.erroff := rfl
@[simp] theorem returnByte_errbyte (x : Byte × Nat) (s : State) : (returnByte x s).errbyte = s.errbyte := rfl
@[simp] theorem returnByte_crc (x : Byte × Nat) (s : State) : (returnByte x s).crc = s.crc := rfl
@[simp] theorem returnByte_olen (x : Byte × Nat) (s : State) : (returnByte x s).olen = s.olen := rfl
@[simp] theorem returnByte_kind (x : Byte × Nat) (s : State) : (returnByte x s).kind = s.kind := rfl
@[simp] theorem returnByte_matched (x : Byte × Nat) (s : State) : (returnByte x s).matched = s.matched := rfl
@[simp] theorem returnByte_avalid (x : Byte × Nat) (s : State) : (returnByte x s).avalid = s.avalid := rfl
@[simp] theorem returnByte_ibuf (x : Byte × Nat) (s : State) : (returnByte x s).ibuf = s.ibuf := rfl
@[simp] theorem returnByte_obuf (x : Byte × Nat) (s : State) : (returnByte x s).obuf = s.obuf := rfl
@[simp] theorem returnByte_addr (x : Byte × Nat) (s : State) : (returnByte x s).addr = s.addr := rfl
@[simp] theorem returnByte_pending (x : Byte × Nat) (s : State) : (returnByte x s).pending = s.pending := rfl
@[simp] theorem returnByte_reply (x : Byte × Nat) (s : State) : (returnByte x s).reply = .byte x.1 := rfl
@[simp] theorem returnByte_draws (x : Byte × Nat) (s : State) : (returnByte x s).draws = x.2 := rfl

/-! ## hostWriteIbuf -/

@[simp] theorem hostWriteIbuf_cmd (i : BitVec 8) (b : Byte) (s : State) : (hostWriteIbuf i b s).cmd = s.cmd := rfl
@[simp] theorem hostWriteIbuf_ilen (i : BitVec 8) (b : Byte) (s : State) : (hostWriteIbuf i b s).ilen = s.ilen := rfl
@[simp] theorem hostWriteIbuf_ckexp (i : BitVec 8) (b : Byte) (s : State) : (hostWriteIbuf i b s).ckexp = s.ckexp := rfl
@[simp] theorem hostWriteIbuf_result (i : BitVec 8) (b : Byte) (s : State) : (hostWriteIbuf i b s).result = s.result := rfl
@[simp] theorem hostWriteIbuf_erroff (i : BitVec 8) (b : Byte) (s : State) : (hostWriteIbuf i b s).erroff = s.erroff := rfl
@[simp] theorem hostWriteIbuf_errbyte (i : BitVec 8) (b : Byte) (s : State) : (hostWriteIbuf i b s).errbyte = s.errbyte := rfl
@[simp] theorem hostWriteIbuf_crc (i : BitVec 8) (b : Byte) (s : State) : (hostWriteIbuf i b s).crc = s.crc := rfl
@[simp] theorem hostWriteIbuf_olen (i : BitVec 8) (b : Byte) (s : State) : (hostWriteIbuf i b s).olen = s.olen := rfl
@[simp] theorem hostWriteIbuf_kind (i : BitVec 8) (b : Byte) (s : State) : (hostWriteIbuf i b s).kind = s.kind := rfl
@[simp] theorem hostWriteIbuf_matched (i : BitVec 8) (b : Byte) (s : State) : (hostWriteIbuf i b s).matched = s.matched := rfl
@[simp] theorem hostWriteIbuf_avalid (i : BitVec 8) (b : Byte) (s : State) : (hostWriteIbuf i b s).avalid = s.avalid := rfl
@[simp] theorem hostWriteIbuf_ibuf (i : BitVec 8) (b : Byte) (s : State) : (hostWriteIbuf i b s).ibuf = s.ibuf.write i.toNat b := rfl
@[simp] theorem hostWriteIbuf_obuf (i : BitVec 8) (b : Byte) (s : State) : (hostWriteIbuf i b s).obuf = s.obuf := rfl
@[simp] theorem hostWriteIbuf_addr (i : BitVec 8) (b : Byte) (s : State) : (hostWriteIbuf i b s).addr = s.addr := rfl
@[simp] theorem hostWriteIbuf_pending (i : BitVec 8) (b : Byte) (s : State) : (hostWriteIbuf i b s).pending = s.pending := rfl
@[simp] theorem hostWriteIbuf_reply (i : BitVec 8) (b : Byte) (s : State) : (hostWriteIbuf i b s).reply = s.reply := rfl
@[simp] theorem hostWriteIbuf_draws (i : BitVec 8) (b : Byte) (s : State) : (hostWriteIbuf i b s).draws = s.draws := rfl

/-! ## resetBlock -/

@[simp] theorem resetBlock_cmd (s : State) : (resetBlock s).cmd = State.reset.cmd := rfl
@[simp] theorem resetBlock_ilen (s : State) : (resetBlock s).ilen = State.reset.ilen := rfl
@[simp] theorem resetBlock_ckexp (s : State) : (resetBlock s).ckexp = State.reset.ckexp := rfl
@[simp] theorem resetBlock_result (s : State) : (resetBlock s).result = State.reset.result := rfl
@[simp] theorem resetBlock_erroff (s : State) : (resetBlock s).erroff = State.reset.erroff := rfl
@[simp] theorem resetBlock_errbyte (s : State) : (resetBlock s).errbyte = State.reset.errbyte := rfl
@[simp] theorem resetBlock_crc (s : State) : (resetBlock s).crc = State.reset.crc := rfl
@[simp] theorem resetBlock_olen (s : State) : (resetBlock s).olen = State.reset.olen := rfl
@[simp] theorem resetBlock_kind (s : State) : (resetBlock s).kind = State.reset.kind := rfl
@[simp] theorem resetBlock_matched (s : State) : (resetBlock s).matched = State.reset.matched := rfl
@[simp] theorem resetBlock_avalid (s : State) : (resetBlock s).avalid = State.reset.avalid := rfl
@[simp] theorem resetBlock_ibuf (s : State) : (resetBlock s).ibuf = State.reset.ibuf := rfl
@[simp] theorem resetBlock_obuf (s : State) : (resetBlock s).obuf = State.reset.obuf := rfl
@[simp] theorem resetBlock_addr (s : State) : (resetBlock s).addr = State.reset.addr := rfl
@[simp] theorem resetBlock_pending (s : State) : (resetBlock s).pending = s.pending := rfl
@[simp] theorem resetBlock_reply (s : State) : (resetBlock s).reply = State.reset.reply := rfl
@[simp] theorem resetBlock_draws (s : State) : (resetBlock s).draws = s.draws := rfl

/-! ## withFetchWord -/

@[simp] theorem withFetchWord_cmd (nbits w : Nat) (s : State) : (s.withFetchWord nbits w).cmd = s.cmd := rfl
@[simp] theorem withFetchWord_ilen (nbits w : Nat) (s : State) : (s.withFetchWord nbits w).ilen = s.ilen := rfl
@[simp] theorem withFetchWord_ckexp (nbits w : Nat) (s : State) : (s.withFetchWord nbits w).ckexp = s.ckexp := rfl
@[simp] theorem withFetchWord_result (nbits w : Nat) (s : State) : (s.withFetchWord nbits w).result = s.result := rfl
@[simp] theorem withFetchWord_erroff (nbits w : Nat) (s : State) : (s.withFetchWord nbits w).erroff = s.erroff := rfl
@[simp] theorem withFetchWord_errbyte (nbits w : Nat) (s : State) : (s.withFetchWord nbits w).errbyte = s.errbyte := rfl
@[simp] theorem withFetchWord_crc (nbits w : Nat) (s : State) : (s.withFetchWord nbits w).crc = s.crc := rfl
@[simp] theorem withFetchWord_olen (nbits w : Nat) (s : State) : (s.withFetchWord nbits w).olen = s.olen := rfl
@[simp] theorem withFetchWord_kind (nbits w : Nat) (s : State) : (s.withFetchWord nbits w).kind = s.kind := rfl
@[simp] theorem withFetchWord_matched (nbits w : Nat) (s : State) : (s.withFetchWord nbits w).matched = s.matched := rfl
@[simp] theorem withFetchWord_avalid (nbits w : Nat) (s : State) : (s.withFetchWord nbits w).avalid = s.avalid := rfl
@[simp] theorem withFetchWord_ibuf (nbits w : Nat) (s : State) : (s.withFetchWord nbits w).ibuf = s.ibuf := rfl
@[simp] theorem withFetchWord_obuf (nbits w : Nat) (s : State) : (s.withFetchWord nbits w).obuf = s.obuf := rfl
@[simp] theorem withFetchWord_addr (nbits w : Nat) (s : State) : (s.withFetchWord nbits w).addr = s.addr := rfl
@[simp] theorem withFetchWord_pending (nbits w : Nat) (s : State) : (s.withFetchWord nbits w).pending = .writeReg (numberOfReg .cmd) (commandWord nbits w) :: s.pending := rfl
@[simp] theorem withFetchWord_reply (nbits w : Nat) (s : State) : (s.withFetchWord nbits w).reply = s.reply := rfl
@[simp] theorem withFetchWord_draws (nbits w : Nat) (s : State) : (s.withFetchWord nbits w).draws = s.draws := rfl

/-! ## raise -/

@[simp] theorem raise_cmd (f : Failure) (s : State) : (raise f s).cmd = s.cmd := by cases f <;> rfl
@[simp] theorem raise_ilen (f : Failure) (s : State) : (raise f s).ilen = s.ilen := by cases f <;> rfl
@[simp] theorem raise_ckexp (f : Failure) (s : State) : (raise f s).ckexp = s.ckexp := by cases f <;> rfl
@[simp] theorem raise_result (f : Failure) (s : State) : (raise f s).result = f.code := by cases f <;> rfl
@[simp] theorem raise_crc (f : Failure) (s : State) : (raise f s).crc = s.crc := by cases f <;> rfl
@[simp] theorem raise_olen (f : Failure) (s : State) : (raise f s).olen = s.olen := by cases f <;> rfl
@[simp] theorem raise_kind (f : Failure) (s : State) : (raise f s).kind = s.kind := by cases f <;> rfl
@[simp] theorem raise_matched (f : Failure) (s : State) : (raise f s).matched = s.matched := by cases f <;> rfl
@[simp] theorem raise_avalid (f : Failure) (s : State) : (raise f s).avalid = s.avalid := by cases f <;> rfl
@[simp] theorem raise_ibuf (f : Failure) (s : State) : (raise f s).ibuf = s.ibuf := by cases f <;> rfl
@[simp] theorem raise_obuf (f : Failure) (s : State) : (raise f s).obuf = s.obuf := by cases f <;> rfl
@[simp] theorem raise_addr (f : Failure) (s : State) : (raise f s).addr = s.addr := by cases f <;> rfl
@[simp] theorem raise_pending (f : Failure) (s : State) : (raise f s).pending = s.pending := by cases f <;> rfl
@[simp] theorem raise_reply (f : Failure) (s : State) : (raise f s).reply = s.reply := by cases f <;> rfl
@[simp] theorem raise_draws (f : Failure) (s : State) : (raise f s).draws = s.draws := by cases f <;> rfl

/-- What `raise` leaves in ERROFF (R212). -/
theorem raise_erroff (f : Failure) (s : State) :
    (raise f s).erroff = match f with
      | .corrupt off => BitVec.ofNat 16 off
      | _ => s.erroff := by
  cases f <;> rfl

/-- What `raise` leaves in ERRBYTE (R212). -/
theorem raise_errbyte (f : Failure) (s : State) :
    (raise f s).errbyte = match f with
      | .badKind b => b
      | _ => s.errbyte := by
  cases f <;> rfl

end Sys2Proof.Machine
end

