-- ==== Sys2Proof/Laws/Ops.lean ====
section
/-! SUPPORT. For each shared operation, what it can do, said once. -/

namespace Sys2Proof.Machine

open Sys2Proof

/-! ## The register map -/

theorem regOfNumber_eq_cmd (r : BitVec 4) : regOfNumber r = some .cmd ↔ r = 0 := by
  revert r; decide

@[simp] theorem regOfNumber_numberOfReg (reg : Reg) : regOfNumber (numberOfReg reg) = some reg := by
  cases reg <;> rfl

theorem numberOfReg_of_regOfNumber (r : BitVec 4) (reg : Reg) (h : regOfNumber r = some reg) :
    numberOfReg reg = r := by
  revert h; cases reg <;> revert r <;> decide

theorem regOfNumber_eq_none (r : BitVec 4) : regOfNumber r = none ↔ 11 ≤ r.toNat := by
  revert r; decide

/-- Everything a write of a register other than CMD can do (R62, R63). -/
theorem writeReg_cases (r : BitVec 4) (v : Half) (s : State) :
    (r = 1 ∧ writeReg r v s = { s with ilen := v.setWidth 8 }) ∨
    (r = 2 ∧ writeReg r v s = { s with ckexp := v }) ∨
    (r ≠ 1 ∧ r ≠ 2 ∧ writeReg r v s = s) := by
  by_cases h1 : r = 1
  · exact .inl ⟨h1, by subst h1; rfl⟩
  · by_cases h2 : r = 2
    · exact .inr (.inl ⟨h2, by subst h2; rfl⟩)
    · refine .inr (.inr ⟨h1, h2, ?_⟩)
      unfold writeReg
      split
      · rename_i h; exact absurd (numberOfReg_of_regOfNumber r _ h).symm h1
      · rename_i h; exact absurd (numberOfReg_of_regOfNumber r _ h).symm h2
      · rfl

/-- Everything AKIND can be (R35). -/
theorem akindView_cases (s : State) :
    (s.avalid = false ∧ akindView s = (0x00, s.draws)) ∨
    (s.avalid = true ∧ ∃ b, s.addr.read 2 = some b ∧ akindView s = (b, s.draws)) ∨
    (s.avalid = true ∧ s.addr.read 2 = none ∧ akindView s = (Config.freeByte s.draws, s.draws + 1)) := by
  cases ha : s.avalid with
  | false => exact .inl ⟨rfl, by simp [akindView, ha]⟩
  | true =>
    rcases fetchByte_cases s.addr 2 s.draws with ⟨b, hb, hf⟩ | ⟨hb, hf⟩
    · exact .inr (.inl ⟨rfl, b, hb, by simp [akindView, ha, hf]⟩)
    · exact .inr (.inr ⟨rfl, hb, by simp [akindView, ha, hf]⟩)

/-! ## One step -/

theorem step_idle (s : State) (h : s.pending = []) : step s = .next s := by simp [step, h]

theorem step_transaction (s : State) (tx : HostTx) (rest : List HostTx) (h : s.pending = tx :: rest) :
    step s = runTransaction tx (takeTransaction rest s) := by
  simp [step, h]

theorem hostWriteReg_cmd (w : Half) (s : State) : hostWriteReg 0 w s = startCommand w s := by
  simp [hostWriteReg, regOfNumber_eq_cmd]

theorem hostWriteReg_other (r : BitVec 4) (v : Half) (s : State) (h : r ≠ 0) :
    hostWriteReg r v s = .next (writeReg r v s) := by
  rw [hostWriteReg, if_neg (by rw [regOfNumber_eq_cmd]; exact h)]

/-- Everything a write of CMD can do (R93). -/
theorem startCommand_cases (w : Half) (s : State) :
    (∃ i, decode w = .ok i ∧ startCommand w s = exec i (latchCommand w s)) ∨
    (∃ e, decode w = .error e ∧ startCommand w s = .next (runIllegal (latchCommand w s))) := by
  cases h : decode w with
  | ok i => exact .inl ⟨i, rfl, by simp [startCommand, h]⟩
  | error e => exact .inr ⟨e, rfl, by simp [startCommand, h]⟩

/-! ## The input sequence -/

@[simp] theorem inputBytes_length (s : State) : (inputBytes s).length = s.ilen.toNat := by simp [inputBytes]

theorem unwrittenBelow_le (m : Memory) (a d : Nat) : unwrittenBelow m a ≤ unwrittenBelow m (a + d) := by
  induction d with
  | zero => exact le_refl _
  | succ d ih => exact le_trans ih (by rw [← Nat.add_assoc]; exact Nat.le_add_right _ _)

theorem fetchByte_draws (m : Memory) (i k : Nat) :
    (fetchByte m i k).2 + unwrittenBelow m i = k + unwrittenBelow m (i + 1) := by
  rcases fetchByte_cases m i k with ⟨b, hb, hf⟩ | ⟨hb, hf⟩
  · simp [hf, unwrittenBelow, hb]
  · simp only [hf, unwrittenBelow, hb, Option.isNone_none, if_true]
    omega

/-- How many free values a run of reads uses up. -/
theorem fetchRun_draws (m : Memory) (n i k : Nat) :
    (fetchRun m i n k).2 + unwrittenBelow m i = k + unwrittenBelow m (i + n) := by
  induction n generalizing i k with
  | zero => rfl
  | succ n ih =>
    have h1 := ih (i + 1) (fetchByte m i k).2
    have h2 := fetchByte_draws m i k
    rw [show i + 1 + n = i + (n + 1) by omega] at h1
    simp only [fetchRun]
    omega

/-- Each byte of a run of reads is the one read at its index, with the draws of the indices before it made. -/
theorem fetchRun_getElem (m : Memory) (n i k j : Nat) (h : j < n) :
    (fetchRun m i n k).1[j]? = some (fetchByte m (i + j) (fetchRun m i j k).2).1 := by
  induction n generalizing i k j with
  | zero => omega
  | succ n ih =>
    cases j with
    | zero => rfl
    | succ j =>
      have h1 := ih (i + 1) (fetchByte m i k).2 j (by omega)
      rw [show i + 1 + j = i + (j + 1) by omega] at h1
      simpa [fetchRun] using h1

/-! ## Padding -/

/-- Everything the padding run can answer (R129, cases E2 to E4, or none of them). -/
theorem paddingFault_cases (n i k : Nat) (rest : List Byte) :
    (paddingFault n i k rest = none ∧ rest = List.replicate k pad) ∨
    (paddingFault n i k rest = some n ∧ ∃ j, j < k ∧ rest = List.replicate j pad) ∨
    (paddingFault n i k rest = some i ∧
      ∃ j x more, j ≤ k ∧ (j < k → x ≠ pad) ∧ rest = List.replicate j pad ++ x :: more) := by
  induction k generalizing rest with
  | zero =>
    cases rest with
    | nil => exact .inl ⟨rfl, rfl⟩
    | cons b rest => exact .inr (.inr ⟨rfl, 0, b, rest, le_refl _, by simp, rfl⟩)
  | succ k ih =>
    cases rest with
    | nil => exact .inr (.inl ⟨rfl, 0, by omega, rfl⟩)
    | cons b rest =>
      by_cases h : b = pad
      · subst h
        have e : paddingFault n i (k + 1) (pad :: rest) = paddingFault n i k rest := by simp [paddingFault]
        rcases ih rest with ⟨h1, h2⟩ | ⟨h1, j, hj, h2⟩ | ⟨h1, j, x, more, hj, hx, h2⟩
        · exact .inl ⟨e.trans h1, by rw [h2]; rfl⟩
        · exact .inr (.inl ⟨e.trans h1, j + 1, by omega, by rw [h2]; rfl⟩)
        · exact .inr (.inr ⟨e.trans h1, j + 1, x, more, by omega, fun h => hx (by omega), by rw [h2]; rfl⟩)
      · exact .inr (.inr ⟨by simp [paddingFault, h], 0, b, rest, by omega, fun _ => h, rfl⟩)

/-! ## The validator -/

/-- What a candidate that decodes satisfies (R182 steps 1 to 5). -/
theorem decodeCandidate_ok (s0 : List Byte) (k : Kind) (d : List Byte) (h : decodeCandidate s0 = .ok (k, d)) :
    hasPrefix (lowerAll s0) = true ∧ s0.length = 48 ∧ parseKind ((lowerAll s0).getD 2 0x00) = some k ∧
    decodeSymbols .ndau (lowerAll s0) = .ok d := by
  simp only [decodeCandidate] at h
  split at h
  · cases h
  split at h
  · cases h
  split at h
  · cases h
  split at h
  · cases h
  · rename_i h1 h2 _ k' h3 _ d' h4
    cases h
    exact ⟨by simpa using h1, by simpa [lowerAll, Config.addrSize] using h2, h3, h4⟩

/-- The failures of steps 2 to 5 (R182): never the checksum's. -/
theorem decodeCandidate_error (s0 : List Byte) (f : Failure) (h : decodeCandidate s0 = .error f) :
    f = .badPrefix ∨ f = .badLength ∨ (∃ b, f = .badKind b) ∨
    ∃ off, f = .corrupt off ∧ decodeSymbols .ndau (lowerAll s0) = .error off := by
  simp only [decodeCandidate] at h
  split at h
  · cases h; exact .inl rfl
  split at h
  · cases h; exact .inr (.inl rfl)
  split at h
  · cases h; exact .inr (.inr (.inl ⟨_, rfl⟩))
  split at h
  · rename_i off hd
    cases h; exact .inr (.inr (.inr ⟨off, rfl, hd⟩))
  · cases h

/-- Everything the shared steps of VALIDATE and CONSTRUCT can do (R184). -/
theorem runValidate_cases (bs : List Byte) (s : State) :
    (∃ f, decodeCandidate bs = .error f ∧ validate bs = .error f ∧ runValidate bs s = raise f s) ∨
    (∃ k d, decodeCandidate bs = .ok (k, d) ∧ suffixOk d = false ∧ validate bs = .error .badChecksum ∧
      runValidate bs s = raise .badChecksum (setCrc (crc16 (payload d)) s)) ∨
    (∃ k d, decodeCandidate bs = .ok (k, d) ∧ suffixOk d = true ∧ validate bs = .ok k ∧
      runValidate bs s = { setMatch true (setCrc (crc16 (payload d)) s) with kind := kindByte k }) := by
  cases h : decodeCandidate bs with
  | error f => exact .inl ⟨f, rfl, by simp [validate, h], by simp [runValidate, h]⟩
  | ok p =>
    obtain ⟨k, d⟩ := p
    cases hs : suffixOk d with
    | false => exact .inr (.inl ⟨k, d, rfl, hs, by simp [validate, h, hs], by simp [runValidate, h, hs]⟩)
    | true => exact .inr (.inr ⟨k, d, rfl, hs, by simp [validate, h, hs], by simp [runValidate, h, hs]⟩)

theorem Failure.code_ne_zero (f : Failure) : f.code ≠ 0 := by cases f <;> simp [Failure.code]

/-- The RESULT of the shared steps is 0 exactly when the candidate is valid. -/
theorem runValidate_result (bs : List Byte) (s : State) (hs : s.result = 0) :
    (runValidate bs s).result = 0 ↔ ∃ k, validate bs = .ok k := by
  rcases runValidate_cases bs s with ⟨f, _, hv, h⟩ | ⟨k, d, _, _, hv, h⟩ | ⟨k, d, _, _, hv, h⟩
  · rw [h, hv]; simpa using Failure.code_ne_zero f
  · rw [h, hv]; simpa using Failure.code_ne_zero _
  · rw [h, hv]; simpa using hs

end Sys2Proof.Machine
end

