-- ==== Sys2Proof/Laws/PerInstr.lean ====
section
/-! SUPPORT. Statements about every command as it is written: one lemma per constructor. -/

namespace Sys2Proof.Laws

open Sys2Proof

/-- A command's fields are well formed (R90, R94), its word carries exactly them, and the decoder of an
opcode-table row reads the command back from that word's 16 bits. -/
def EncodesItsFields.Statement (i : Instr) : Prop :=
  i.wellFormed = true ∧ commandFields (encode i) = i.fields ∧ decodeTableWord 16 (encode i).toNat = some i

theorem EncodesItsFields.crc16 : EncodesItsFields.Statement .crc16 := by
  unfold EncodesItsFields.Statement; decide
theorem EncodesItsFields.crcchk : EncodesItsFields.Statement .crcchk := by
  unfold EncodesItsFields.Statement; decide
theorem EncodesItsFields.decStd : EncodesItsFields.Statement .decStd := by
  unfold EncodesItsFields.Statement; decide
theorem EncodesItsFields.decNdau : EncodesItsFields.Statement .decNdau := by
  unfold EncodesItsFields.Statement; decide
theorem EncodesItsFields.encStd : EncodesItsFields.Statement .encStd := by
  unfold EncodesItsFields.Statement; decide
theorem EncodesItsFields.encNdau : EncodesItsFields.Statement .encNdau := by
  unfold EncodesItsFields.Statement; decide
theorem EncodesItsFields.validate : EncodesItsFields.Statement .validate := by
  unfold EncodesItsFields.Statement; decide
theorem EncodesItsFields.construct : EncodesItsFields.Statement .construct := by
  unfold EncodesItsFields.Statement; decide

end Sys2Proof.Laws
end

