-- ==== Sys2Proof/Tests/Slice0.lean ====
section
/-! SUPPORT. Tests: ill-formed terms refused, command words written out bit by bit, one step on small states with the
expected values of `spec/95_test_vectors.md`, and a witness for the hypotheses of every statement that has some. -/

namespace Sys2Proof.Tests

open Sys2Proof Sys2Proof.Machine

/-! ## Helpers -/

/-- The reset state with `bs` as the input of the next command. -/
def loaded (bs : List Byte) : State :=
  { State.reset with ibuf := Memory.writeRun [] 0 bs, ilen := BitVec.ofNat 8 bs.length }

/-- The state with one transaction pending. -/
def issue (tx : HostTx) (s : State) : State := { s with pending := [tx] }

/-- The next state of an outcome; reset where there is none. -/
def nextOf : Host.Outcome State Fault Refusal → State
  | .next s => s
  | .fault _ => State.reset
  | .refused _ => State.reset

theorem issue_pending (tx : HostTx) (s : State) : (issue tx s).pending = tx :: [] := rfl

theorem issue_addressHeld (tx : HostTx) (s : State) (h : AddressHeld s) : AddressHeld (issue tx s) := h

theorem issue_outputSpecified (tx : HostTx) (s : State) (h : OutputSpecified s) : OutputSpecified (issue tx s) := h

/-- Whether an outcome is a next state. -/
def isNext : Host.Outcome State Fault Refusal → Bool
  | .next _ => true
  | .fault _ => false
  | .refused _ => false

theorem next_of_isNext (o : Host.Outcome State Fault Refusal) (h : isNext o = true) : o = .next (nextOf o) := by
  cases o with
  | next s => rfl
  | fault r => cases h
  | refused r => cases h

/-- The state after one step of a transaction. -/
def after (tx : HostTx) (s : State) : State := nextOf (step (issue tx s))

/-- RESULT, ERROFF and ERRBYTE after a command. -/
def outcomeOf (i : Instr) (bs : List Byte) : BitVec 4 × Half × Byte :=
  let t := nextOf (exec i (loaded bs))
  (t.result, t.erroff, t.errbyte)

/-- The output sequence after a command. -/
def outputOf (i : Instr) (bs : List Byte) : Option (List Byte) :=
  let t := nextOf (exec i (loaded bs))
  t.obuf.readRun 0 t.olen.toNat

/-- The text 123456789 (K11, H1). -/
def digits : List Byte := [0x31, 0x32, 0x33, 0x34, 0x35, 0x36, 0x37, 0x38, 0x39]

/-- The address of source vector S12. -/
def source : List Byte :=
  [0x6E, 0x64, 0x61, 0x64, 0x70, 0x72, 0x78, 0x37, 0x36, 0x34, 0x63, 0x69, 0x69, 0x67, 0x74, 0x69, 0x38, 0x64,
   0x38, 0x77, 0x68, 0x74, 0x77, 0x32, 0x6B, 0x63, 0x74, 0x37, 0x33, 0x33, 0x72, 0x38, 0x35, 0x71, 0x76, 0x6A,
   0x75, 0x6B, 0x68, 0x71, 0x68, 0x6B, 0x65, 0x33, 0x64, 0x6B, 0x61, 0x34]

/-- The same in upper case (A2, P5). -/
def sourceUpper : List Byte :=
  [0x4E, 0x44, 0x41, 0x44, 0x50, 0x52, 0x58, 0x37, 0x36, 0x34, 0x43, 0x49, 0x49, 0x47, 0x54, 0x49, 0x38, 0x44,
   0x38, 0x57, 0x48, 0x54, 0x57, 0x32, 0x4B, 0x43, 0x54, 0x37, 0x33, 0x33, 0x52, 0x38, 0x35, 0x51, 0x56, 0x4A,
   0x55, 0x4B, 0x48, 0x51, 0x48, 0x4B, 0x45, 0x33, 0x44, 0x4B, 0x41, 0x34]

/-- The padded candidate of `42_address.md` R190. -/
def padded : List Byte :=
  [0x6E, 0x64, 0x61, 0x61, 0x67, 0x62, 0x61, 0x66, 0x61, 0x32, 0x64, 0x73, 0x73, 0x63, 0x69, 0x6B, 0x62, 0x6E,
   0x67, 0x61, 0x34, 0x64, 0x73, 0x72, 0x63, 0x61, 0x69, 0x74, 0x65, 0x65, 0x32, 0x77, 0x63, 0x77, 0x6D, 0x62,
   0x71, 0x67, 0x61, 0x33, 0x64, 0x69, 0x70, 0x32, 0x67, 0x62, 0x61, 0x3D]

/-- The state after CONSTRUCT of S12: an address is held. -/
def held : State := after (.writeReg 0 0x0006) (loaded source)

/-! ## WellFormed: each check refuses an ill-formed term -/

theorem test_wf_refuses_reserved_bit :
    ({ rsv := 1, cs := 0, op := 1 } : CommandFields).reservedClear = false ∧
    ({ rsv := 1, cs := 0, op := 1 } : CommandFields).wellFormed = false := by decide

theorem test_wf_refuses_undefined_operation :
    ({ rsv := 0, cs := 0, op := 0 } : CommandFields).operationDefined = false ∧
    ({ rsv := 0, cs := 0, op := 7 } : CommandFields).operationDefined = false ∧
    ({ rsv := 0, cs := 0, op := 7 } : CommandFields).wellFormed = false := by decide

theorem test_wf_refuses_codec_select :
    ({ rsv := 0, cs := 1, op := 1 } : CommandFields).codecSelectAllowed = false ∧
    ({ rsv := 0, cs := 1, op := 6 } : CommandFields).wellFormed = false := by decide

theorem test_wf_refuses_alphabet_of_31 :
    alphabetLengthOk ((alphabet .std).take 31) = false ∧
    alphabetWellFormed pad ((alphabet .std).take 31) = false := by decide

theorem test_wf_refuses_duplicate_symbol :
    alphabetDistinct ((alphabet .std).take 31 ++ [0x41]) = false ∧
    alphabetWellFormed pad ((alphabet .std).take 31 ++ [0x41]) = false := by decide

theorem test_wf_refuses_pad_in_alphabet :
    alphabetPadFree pad ((alphabet .std).take 31 ++ [0x3D]) = false ∧
    alphabetWellFormed pad ((alphabet .std).take 31 ++ [0x3D]) = false := by decide

/-! ## Decode: the words of R92 bit by bit (RSV, CS, OP), and the words of R94 refused by name -/

theorem test_decode_crc16 : decode 0b00000000000_0_0001 = .ok .crc16 := by decide
theorem test_decode_crcchk : decode 0b00000000000_0_0010 = .ok .crcchk := by decide
theorem test_decode_decStd : decode 0b00000000000_0_0011 = .ok .decStd := by decide
theorem test_decode_decNdau : decode 0b00000000000_1_0011 = .ok .decNdau := by decide
theorem test_decode_encStd : decode 0b00000000000_0_0100 = .ok .encStd := by decide
theorem test_decode_encNdau : decode 0b00000000000_1_0100 = .ok .encNdau := by decide
theorem test_decode_validate : decode 0b00000000000_0_0101 = .ok .validate := by decide
theorem test_decode_construct : decode 0b00000000000_0_0110 = .ok .construct := by decide

theorem test_decode_refuses_reserved :
    decode 0x0021 = .error .reservedBitsSet ∧ decode 0x8001 = .error .reservedBitsSet := by decide

theorem test_decode_refuses_operation :
    decode 0x0000 = .error .undefinedOperation ∧ decode 0x0007 = .error .undefinedOperation ∧
    decode 0x0010 = .error .undefinedOperation ∧ decode 0x001F = .error .undefinedOperation := by decide

theorem test_decode_refuses_codec_select :
    decode 0x0011 = .error .codecSelectNotAllowed ∧ decode 0x0012 = .error .codecSelectNotAllowed ∧
    decode 0x0015 = .error .codecSelectNotAllowed ∧ decode 0x0016 = .error .codecSelectNotAllowed := by decide

theorem test_decodeTableWord :
    decodeTableWord 16 0x0013 = some .decNdau ∧ decodeTableWord 16 0x0006 = some .construct ∧
    decodeTableWord 16 0xFFFF = none := by decide

theorem test_withFetchWord_runs_command :
    (nextOf (step (State.reset.withFetchWord 16 0x0001))).crc = 0x1D0F ∧
    (nextOf (step (State.reset.withFetchWord 16 0x0001))).olen = 2 ∧
    (nextOf (step (State.reset.withFetchWord 16 0x0005))).result = 1 := by decide

/-! ## One step of each command (vectors K4, H1, H2, D12, D40, N3, N13, X2, A1, A3, A13, A18, P5) -/

theorem test_crc16_a : (nextOf (exec .crc16 (loaded [0x61]))).crc = 0xB01B ∧
    outputOf .crc16 [0x61] = some [0xB0, 0x1B] := by decide

theorem test_crcchk_digits_match :
    statusView (nextOf (exec .crcchk { loaded digits with ckexp := 0xE5CC })) = 0x0003 := by
  decide +kernel

theorem test_crcchk_bytes_swapped :
    statusView (nextOf (exec .crcchk { loaded digits with ckexp := 0xCCE5 })) = 0x0001 := by
  decide +kernel

theorem test_encStd_f : outputOf .encStd [0x66] = some [0x4D, 0x59, 0x3D, 0x3D, 0x3D, 0x3D, 0x3D, 0x3D] := by
  decide

theorem test_encNdau_f : outputOf .encNdau [0x66] = some [0x6E, 0x32, 0x3D, 0x3D, 0x3D, 0x3D, 0x3D, 0x3D] := by
  decide

theorem test_decStd_seven_real_symbols :
    outputOf .decStd [0x41, 0x41, 0x41, 0x41, 0x41, 0x41, 0x41, 0x3D] = some [0x00, 0x00, 0x00, 0x00] := by
  decide

theorem test_decStd_source_offset :
    outcomeOf .decStd [0x41, 0x41, 0x3D, 0x41, 0x3D, 0x3D, 0x3D, 0x3D] = (4, 0x0002, 0x00) := by decide

theorem test_decNdau_mixed_case :
    outputOf .decNdau [0x41, 0x65, 0x42, 0x61, 0x47, 0x62, 0x41, 0x66] = some [0x01, 0x02, 0x03, 0x04, 0x05] := by
  decide

theorem test_decNdau_folded_l :
    outcomeOf .decNdau [0x61, 0x65, 0x62, 0x61, 0x4C, 0x62, 0x61, 0x66] = (4, 0x0004, 0x00) := by decide

theorem test_validate_source :
    (let t := nextOf (exec .validate (loaded source))
     (t.result, t.kind, t.crc, statusView t) = (0, 0x61, 0xA81A, 0x0003)) := by decide +kernel

theorem test_validate_wrong_kind_character :
    (let t := nextOf (exec .validate (loaded (source.set 2 0x78)))
     (t.result, t.kind, t.crc, statusView t) = (5, 0x00, 0xA564, 0x0000)) := by decide +kernel

theorem test_construct_upper_case :
    (let t := nextOf (exec .construct (loaded sourceUpper))
     (t.result, statusView t, heldAddress t) = (0, 0x0007, some source)) := by decide +kernel

theorem test_construct_failure_keeps_address :
    (let t := nextOf (exec .construct { held with ibuf := Memory.writeRun [] 0 (source.set 10 0x6C) })
     (t.result, t.erroff, heldAddress t) = (4, 0x000A, some source)) := by decide +kernel

/-! ## Witnesses: concrete states and operands that meet the hypotheses of the statements -/

theorem test_witness_illegalWordRecorded :
    (∀ w : Half, (issue (.writeReg 0 w) State.reset).pending = .writeReg 0 w :: []) ∧
    (0x0020 : Half).toNat / 32 ≠ 0 ∧ (0xFFFF : Half).toNat / 32 ≠ 0 ∧ (0x0000 : Half).toNat % 16 = 0 ∧
    7 ≤ (0x0007 : Half).toNat % 16 ∧ 7 ≤ (0x000F : Half).toNat % 16 ∧
    ((0x0011 : Half).toNat / 16 % 2 = 1 ∧ (0x0011 : Half).toNat % 16 ∈ [1, 2, 5, 6]) ∧
    ((0x0016 : Half).toNat / 16 % 2 = 1 ∧ (0x0016 : Half).toNat % 16 ∈ [1, 2, 5, 6]) :=
  ⟨fun _ => issue_pending _ _, by decide⟩

theorem test_witness_stepRunsDecodedCommand :
    (issue (.writeReg 0 0x0014) State.reset).pending = .writeReg 0 0x0014 :: [] ∧ decode 0x0014 = .ok .encNdau := by
  decide

theorem test_witness_inputSequenceReadsBuffer :
    (let s := { loaded [0x61] with ilen := 2 }
     (0 < s.ilen.toNat ∧ s.ibuf.read 0 = some 0x61) ∧ (1 < s.ilen.toNat ∧ s.ibuf.read 1 = none)) := by decide

theorem test_witness_bytesBeyondIlenIgnored :
    (∀ j, j < (loaded [0x61]).ilen.toNat →
      Memory.read [(0, 0x61), (1, 0x62)] j = (loaded [0x61]).ibuf.read j) ∧
    Memory.read [(0, 0x61), (1, 0x62)] 1 ≠ (loaded [0x61]).ibuf.read 1 := by decide

theorem test_witness_ckexpReadOnlyByCrcchk : Instr.crc16 ≠ .crcchk ∧ Instr.construct ≠ .crcchk := by decide

theorem test_witness_crcCommands :
    State.reset.ilen = 0 ∧ inputBytes (loaded digits) = digits := by
  decide

theorem test_witness_checksumResidue :
    ([0x1D, 0x0F] : List Byte).length = 2 ∧ 2 ≤ ([0x1D, 0x0F] : List Byte).length := by decide

theorem test_witness_checksumDetectsOneByte : (0x31 : Byte) ≠ 0x30 := by decide

theorem test_witness_encCommandsComplete :
    State.reset.ilen = 0 ∧ (loaded (List.replicate 255 0x00)).ilen = 255 := by decide +kernel

theorem test_witness_encodeSymbolsByFormula :
    ([0x66] : List Byte).length ∈ [1, 2, 3, 4, 5] ∧
    (List.replicate 5 (0xFF : Byte)).length ∈ [1, 2, 3, 4, 5] := by
  decide

theorem test_witness_encodePadsShortGroup :
    (encodeBytes .std [0x66])[1]? = some 0x59 ∧ (0x59 : Byte) ≠ pad ∧
    (encodeBytes .std [0x66])[2]? = some pad := by decide

theorem test_witness_encodeSplitsAtQuantum :
    ([] : List Byte).length % 5 = 0 ∧ (List.replicate 5 (0x00 : Byte)).length % 5 = 0 := by decide

theorem test_witness_decCommandsComplete :
    decodeSymbols .std (inputBytes (loaded [])) = .ok [] ∧
    decodeSymbols .ndau (inputBytes (loaded [0x41, 0x65, 0x42, 0x61, 0x47, 0x62, 0x41, 0x66])) =
      .ok [0x01, 0x02, 0x03, 0x04, 0x05] := by decide

theorem test_witness_decCommandsReportCorruption :
    decodeSymbols .std (inputBytes (loaded [0x21, 0x21, 0x21, 0x21])) = .error 0 ∧
    decodeSymbols .ndau (inputBytes (loaded [0x61])) = .error 1 := by decide

/-- The clauses of `DecodeOutcomes` in order, at vectors D13 and D1 (full quanta), D24 (E1), D29 and D45 (E6), D32
(E2), D40 (E3), D44 (E4), D49 (E5), D2 (padded): what is looked up, what remains, and the outcome. -/
def splitsAs (c : Codec) (s0 pre rest : List Byte) : Bool :=
  decide (foldInput c s0 = pre ++ rest) && pre.all (fun b => (lut c b).isSome)

theorem test_witness_outcome_full_quanta :
    splitsAs .std (List.replicate 8 0x41) (List.replicate 8 0x41) [] = true ∧
    (List.replicate 8 (0x41 : Byte)).length % 8 = 0 ∧
    splitsAs .std [] [] [] = true ∧ decodeSymbols .std [] = .ok [] := by decide

theorem test_witness_outcome_ran_out :
    splitsAs .std [0x41] [0x41] [] = true ∧ ([0x41] : List Byte).length % 8 ≠ 0 ∧
    decodeSymbols .std [0x41] = .error 1 := by decide

theorem test_witness_outcome_not_a_symbol :
    splitsAs .std (0x41 :: List.replicate 7 pad) [0x41] (List.replicate 7 pad) = true ∧ lut .std pad = none ∧
    ¬(pad = pad ∧ 2 ≤ ([0x41] : List Byte).length % 8 ∧ (List.replicate 6 pad).length < 8) ∧
    decodeSymbols .std (0x41 :: List.replicate 7 pad) = .error 1 ∧
    splitsAs .std (0x41 :: 0x41 :: List.replicate 9 pad) [0x41, 0x41] (pad :: List.replicate 8 pad) = true ∧
    ¬(pad = pad ∧ 2 ≤ ([0x41, 0x41] : List Byte).length % 8 ∧ (List.replicate 8 pad).length < 8) ∧
    decodeSymbols .std (0x41 :: 0x41 :: List.replicate 9 pad) = .error 2 := by decide

theorem test_witness_outcome_too_few_pads :
    splitsAs .std [0x41, 0x41, pad] [0x41, 0x41] (pad :: List.replicate 0 pad) = true ∧
    2 ≤ ([0x41, 0x41] : List Byte).length % 8 ∧ 0 < 7 - ([0x41, 0x41] : List Byte).length % 8 ∧
    decodeSymbols .std [0x41, 0x41, pad] = .error 3 := by decide

theorem test_witness_outcome_symbol_in_padding :
    splitsAs .std [0x41, 0x41, 0x3D, 0x41, 0x3D, 0x3D, 0x3D, 0x3D] [0x41, 0x41]
      (pad :: (List.replicate 0 pad ++ 0x41 :: List.replicate 4 pad)) = true ∧ (0x41 : Byte) ≠ pad ∧
    2 ≤ ([0x41, 0x41] : List Byte).length % 8 ∧ 0 < 7 - ([0x41, 0x41] : List Byte).length % 8 ∧
    0 + 1 + (List.replicate 4 pad).length < 8 := by decide

theorem test_witness_outcome_symbols_follow :
    splitsAs .std (0x41 :: 0x41 :: (List.replicate 6 pad ++ [0x41])) [0x41, 0x41]
      (pad :: (List.replicate (7 - ([0x41, 0x41] : List Byte).length % 8) pad ++ 0x41 :: [])) = true ∧
    2 ≤ ([0x41, 0x41] : List Byte).length % 8 ∧
    7 - ([0x41, 0x41] : List Byte).length % 8 + 1 + ([] : List Byte).length < 8 ∧
    decodeSymbols .std (0x41 :: 0x41 :: (List.replicate 6 pad ++ [0x41])) = .error 2 := by decide

theorem test_witness_outcome_invalid_length :
    splitsAs .std [0x41, 0x41, 0x41, 0x3D, 0x3D, 0x3D, 0x3D, 0x3D] [0x41, 0x41, 0x41]
      (pad :: List.replicate (7 - ([0x41, 0x41, 0x41] : List Byte).length % 8) pad) = true ∧
    ([0x41, 0x41, 0x41] : List Byte).length % 8 = 3 ∧
    decodeSymbols .std [0x41, 0x41, 0x41, 0x3D, 0x3D, 0x3D, 0x3D, 0x3D] = .error 3 := by decide

theorem test_witness_outcome_padded_quantum :
    splitsAs .std [0x4D, 0x59, 0x3D, 0x3D, 0x3D, 0x3D, 0x3D, 0x3D] [0x4D, 0x59]
      (pad :: List.replicate (7 - ([0x4D, 0x59] : List Byte).length % 8) pad) = true ∧
    ([0x4D, 0x59] : List Byte).length % 8 ∈ [2, 4, 5, 7] ∧
    decodeSymbols .std [0x4D, 0x59, 0x3D, 0x3D, 0x3D, 0x3D, 0x3D, 0x3D] = .ok [0x66] := by decide

theorem test_witness_quantumDecodesByFormula :
    (List.replicate 2 (0 : Group5)).length ∈ [2, 4, 5, 7, 8] ∧
    (List.replicate 8 (31 : Group5)).length ∈ [2, 4, 5, 7, 8] := by decide

/-- No quantum before the rest, and one in upper case (N2); a rest that decodes with unused low bits set (D3) and one
that fails (D24). -/
theorem test_witness_decodeSplitsAtQuantum :
    (([] : List Byte).length % 8 = 0 ∧ ∀ b ∈ foldInput .std [], (lut .std b).isSome = true) ∧
    (([0x41, 0x45, 0x42, 0x41, 0x47, 0x42, 0x41, 0x46] : List Byte).length % 8 = 0 ∧
      (foldInput .ndau [0x41, 0x45, 0x42, 0x41, 0x47, 0x42, 0x41, 0x46]).all (fun b => (lut .ndau b).isSome) = true) ∧
    decodeSymbols .std (0x4D :: 0x5A :: List.replicate 6 pad) = .ok [0x66] ∧
    decodeSymbols .std [0x41] = .error 1 :=
  ⟨⟨rfl, fun b h => by simp [foldInput, folds] at h⟩, by decide⟩

/-- D3 behind a full quantum (D13), and D24 behind it: the bytes in order, and the offset in the whole input. -/
theorem test_decode_behind_full_quantum :
    decodeSymbols .std (List.replicate 8 0x41 ++ 0x4D :: 0x5A :: List.replicate 6 pad) =
      .ok [0x00, 0x00, 0x00, 0x00, 0x00, 0x66] ∧
    decodeSymbols .std (List.replicate 8 0x41 ++ [0x41]) = .error 9 := by decide

/-- The input of 155 bytes, the longest whose encoding fits ILEN, and the empty one. -/
theorem test_witness_encThenDec :
    ∀ s ∈ [loaded [], loaded (List.replicate 155 0x00)],
      (let t := runEncode .ndau s
       let u := { t with ilen := t.olen.setWidth 8, ibuf := t.obuf }
       s.ilen.toNat ≤ 155 ∧ exec .encNdau s = .next t ∧ u.ilen.toNat = t.olen.toNat ∧
       ∀ i, i < t.olen.toNat → u.ibuf.read i = t.obuf.read i) := by
  intro s hs
  have h : s.ilen.toNat ≤ 155 ∧ ((runEncode .ndau s).olen.setWidth 8 : BitVec 8).toNat =
      (runEncode .ndau s).olen.toNat := by
    revert s; decide +kernel
  exact ⟨h.1, rfl, h.2, fun _ _ => rfl⟩

theorem test_witness_validate_stepOrder :
    (lowerAll [0x6E])[1]? ≠ some 0x64 ∧
    ((lowerAll source)[0]? = some 0x6E ∧ (lowerAll source)[1]? = some 0x64 ∧ source.length = 48) ∧
    ((lowerAll (source.take 47))[1]? = some 0x64 ∧ (source.take 47).length ≠ 48) ∧
    (lowerAll (source.set 2 0x63))[2]? = some 0x63 ∧ parseKind 0x63 = none ∧
    parseKind 0x61 = some .user ∧ decodeSymbols .ndau (lowerAll (source.set 47 0x30)) = .error 47 ∧
    (decodeSymbols .ndau (lowerAll (source.set 2 0x78))).map suffixOk = .ok false ∧
    (decodeSymbols .ndau (lowerAll source)).map suffixOk = .ok true := by
  decide +kernel

theorem test_witness_validatorFailuresRecorded :
    validate (inputBytes (loaded [0x6E])) = .error .badPrefix ∧
    validate (inputBytes (loaded [0x6E, 0x64])) = .error .badLength ∧
    validate (inputBytes (loaded (source.set 2 0x00))) = .error (.badKind 0x00) ∧
    validate (inputBytes (loaded (source.set 10 0x6C))) = .error (.corrupt 10) ∧
    validate (inputBytes (loaded (source.set 2 0x78))) = .error .badChecksum := by decide +kernel

theorem test_witness_validateAndConstructComplete :
    validate (inputBytes (loaded source)) = .ok .user ∧ validate (inputBytes (loaded padded)) = .ok .user := by
  decide +kernel

theorem test_witness_addressDecodesTo26To30 :
    (source.length = 48 ∧ (decodeSymbols .ndau source).map List.length = .ok 30) ∧
    (padded.length = 48 ∧ (decodeSymbols .ndau padded).map List.length = .ok 29) := by decide

theorem test_witness_constructAgainKeepsAddress :
    exec .construct (loaded sourceUpper) = .next (nextOf (exec .construct (loaded sourceUpper))) ∧
    (nextOf (exec .construct (loaded sourceUpper))).result = 0 ∧
    (let t := nextOf (exec .construct (loaded sourceUpper))
     let u := { t with ibuf := Memory.writeRun [] 0 source }
     u.addr = t.addr ∧ u.avalid = t.avalid ∧ heldAddress t = some (inputBytes u)) :=
  ⟨next_of_isNext _ (by decide +kernel), by decide +kernel, by decide +kernel⟩

theorem test_witness_commandIgnoresEarlierResults :
    (let s := loaded [0x61]
     let u := { s with result := 6, crc := 0x1234, avalid := true }
     u.ilen = s.ilen ∧ u.ckexp = s.ckexp ∧ (∀ j, u.ibuf.read j = s.ibuf.read j) ∧ u.draws = s.draws) :=
  ⟨rfl, rfl, fun _ => rfl, rfl⟩

theorem test_witness_commandsOnEmptyInput : State.reset.ilen = 0 := rfl

theorem test_witness_heldAddressChangesOnlyByConstruct :
    (let s := issue (.writeReg 0 0x0006) State.reset
     s.pending.head? ≠ some .reset ∧ s.pending.head? = some (.writeReg 0 0x0006) ∧
     (nextOf (step s)).result ≠ 0) := by decide

theorem test_witness_crcChangesOnlyByChecksum :
    (let s := issue (.writeReg 0 0x0005) State.reset
     s.pending.head? ≠ some .reset ∧ s.pending.head? ≠ some (.writeReg 0 0x0001) ∧
     s.pending.head? ≠ some (.writeReg 0 0x0002) ∧
     (nextOf (step s)).result ≠ 0 ∧ (nextOf (step s)).result ≠ 5) := by decide

theorem test_witness_resultsStayUntilNextCommand :
    (let s := issue (.writeReg 1 0x0005) State.reset
     s.pending.head? ≠ some .reset ∧ ∀ w, s.pending.head? ≠ some (.writeReg 0 w)) :=
  ⟨by decide, fun w h => by simp [issue] at h⟩

theorem test_witness_everyStepAnswersNext : State.reset.pending = [] := rfl

theorem test_source_addressValid : AddressValid source :=
  ⟨by decide, by decide, by decide, .user, (decodeSymbols .ndau source).toOption.getD [],
    by decide, by decide, by decide +kernel, by decide, by decide +kernel⟩

theorem test_held_addressHeld : AddressHeld held := fun _ => ⟨source, by decide +kernel, test_source_addressValid⟩

theorem test_reset_addressHeld : AddressHeld State.reset := fun h => by simp [State.reset] at h

/-- Every register number, with an address held and without. -/
theorem test_witness_registerReadsFollowMap :
    ∀ r : BitVec 4, (issue (.readReg r) held).pending = .readReg r :: [] ∧ AddressHeld (issue (.readReg r) held) ∧
      AddressHeld (issue (.readReg r) State.reset) :=
  fun _ => ⟨issue_pending _ _, issue_addressHeld _ _ test_held_addressHeld,
    issue_addressHeld _ _ test_reset_addressHeld⟩

theorem test_register_reads :
    (after (.readReg 3) held).reply = .half 0x0007 ∧ (after (.readReg 10) held).reply = .half 0x0061 ∧
    (after (.readReg 10) State.reset).reply = .half 0x0000 ∧ (after (.readReg 11) held).reply = .half 0x0000 ∧
    (after (.readReg 15) held).reply = .half 0x0000 := by decide +kernel

theorem test_witness_registerWritesFollowMap :
    ∀ r ∈ ([1, 2, 3, 15] : List (BitVec 4)), r ≠ 0 ∧
      (issue (.writeReg r 0x1234) State.reset).pending = .writeReg r 0x1234 :: [] := by decide

theorem test_register_writes :
    (after (.writeReg 1 0x1234) State.reset).ilen = 0x34 ∧ (after (.writeReg 2 0x1234) State.reset).ckexp = 0x1234 ∧
    (after (.writeReg 7 0x1234) State.reset).crc = 0x1D0F := by decide

theorem test_witness_ibufTransactions :
    (issue (.writeIbuf 255 0x61) State.reset).pending = .writeIbuf 255 0x61 :: [] ∧
    (issue (.readIbuf 0) (loaded [0x61])).pending = .readIbuf 0 :: [] ∧ (loaded [0x61]).ibuf.read 0 = some 0x61 ∧
    (loaded [0x61]).ibuf.read 1 = none := by decide

/-- The state after CRC16 over no input: two bytes of OBUF are specified. -/
def emitted : State := nextOf (exec .crc16 (loaded []))

theorem test_emitted_outputSpecified : OutputSpecified emitted := by
  have h : emitted.obuf = [(0, 0x1D), (1, 0x0F)] ∧ emitted.olen = 2 := by decide
  intro i
  rw [h.1, h.2]
  match i with
  | 0 => decide
  | 1 => decide
  | n + 2 => simp [Memory.read, Memory.unlisted]

theorem test_witness_obufReadReturnsEmitted :
    OutputSpecified (issue (.readObuf 1) emitted) ∧ (1 : BitVec 9).toNat < emitted.olen.toNat ∧
    OutputSpecified (issue (.readObuf 2) emitted) ∧ emitted.olen.toNat ≤ (2 : BitVec 9).toNat ∧
    (after (.readObuf 1) emitted).reply = .byte 0x0F :=
  ⟨issue_outputSpecified _ _ test_emitted_outputSpecified, by decide,
    issue_outputSpecified _ _ test_emitted_outputSpecified, by decide, by decide⟩

theorem test_witness_addrReadReturnsHeld :
    AddressHeld (issue (.readAddr 47) held) ∧ held.avalid = true ∧ (47 : BitVec 6).toNat < 48 ∧
    48 ≤ (48 : BitVec 6).toNat ∧ AddressHeld (issue (.readAddr 0) State.reset) ∧ State.reset.avalid = false ∧
    (after (.readAddr 47) held).reply = .byte 0x34 :=
  ⟨issue_addressHeld _ _ test_held_addressHeld, by decide +kernel, by decide, by decide,
    issue_addressHeld _ _ test_reset_addressHeld, rfl, by decide +kernel⟩

theorem test_witness_resetClearsBlock : (issue .reset held).pending = .reset :: [] := issue_pending _ _

theorem test_reset_forgets_address : (after .reset held).avalid = false ∧ (after .reset held).crc = 0x1D0F := by
  decide

theorem test_witness_ibufStatementLoadsInput :
    ([] : List Byte).length ≤ Config.ilenMax ∧ (List.replicate 255 (0x00 : Byte)).length ≤ Config.ilenMax := by
  decide +kernel

theorem test_witness_stepKeepsRegistersLegal :
    RegistersLegal (issue (.writeReg 0 0x0001) held) ∧
    step (issue (.writeReg 0 0x0001) held) = .next (after (.writeReg 0 0x0001) held) :=
  ⟨by decide +kernel, next_of_isNext _ (by decide)⟩

theorem test_witness_stepKeepsBuffersCanonical :
    BuffersCanonical (issue (.writeIbuf 255 0x61) emitted) ∧ OutputSpecified (issue (.writeIbuf 255 0x61) emitted) ∧
    step (issue (.writeIbuf 255 0x61) emitted) = .next (after (.writeIbuf 255 0x61) emitted) :=
  ⟨by decide, issue_outputSpecified _ _ test_emitted_outputSpecified, next_of_isNext _ (by decide)⟩

theorem test_witness_stepKeepsAddressHeld :
    AddressHeld (issue (.writeReg 0 0x0001) held) ∧
    step (issue (.writeReg 0 0x0001) held) = .next (after (.writeReg 0 0x0001) held) :=
  ⟨issue_addressHeld _ _ test_held_addressHeld, next_of_isNext _ (by decide)⟩

end Sys2Proof.Tests
end

/-! SUPPORT. Command words decode to the command whose word they are, and the lengths and offsets the codecs can give. -/

namespace Sys2Proof.Machine

open Sys2Proof

/-! ## Command words -/

theorem fieldsWord_commandFields (w : Half) : fieldsWord (commandFields w) = w := by
  ext j hj
  simp only [fieldsWord, commandFields]
  grind

theorem decodeStdOp_ok {n : Nat} {i : Instr} (h : decodeStdOp n = .ok i) :
    i.fields.rsv = 0 ∧ i.fields.cs = 0 ∧ i.fields.op.toNat = n := by
  unfold decodeStdOp at h
  split at h <;> cases h <;> decide

theorem decodeNdauOp_ok {n : Nat} {i : Instr} (h : decodeNdauOp n = .ok i) :
    i.fields.rsv = 0 ∧ i.fields.cs = 1 ∧ i.fields.op.toNat = n := by
  unfold decodeNdauOp at h
  split at h <;> cases h <;> decide

theorem CommandFields.ext_of_toNat {f g : CommandFields} (hrsv : f.rsv = g.rsv) (hcs : f.cs = g.cs)
    (hop : f.op.toNat = g.op.toNat) : f = g := by
  cases f; cases g
  simp_all [BitVec.toNat_eq]

/-- A word that decodes carries the fields of its command (R90, R92). -/
theorem commandFields_of_decode {w : Half} {i : Instr} (h : decode w = .ok i) : commandFields w = i.fields := by
  simp only [decode] at h
  split at h
  next => cases h
  next hrsv =>
    split at h
    next hcs =>
      obtain ⟨h1, h2, h3⟩ := decodeStdOp_ok h
      exact CommandFields.ext_of_toNat (by simpa [h1] using hrsv) (hcs.trans h2.symm) h3.symm
    next hcs =>
      obtain ⟨h1, h2, h3⟩ := decodeNdauOp_ok h
      have hcs1 : (commandFields w).cs = 1 := by bv_omega
      exact CommandFields.ext_of_toNat (by simpa [h1] using hrsv) (hcs1.trans h2.symm) h3.symm

/-- A word that decodes is the word of its command (R92). -/
theorem encode_of_decode {w : Half} {i : Instr} (h : decode w = .ok i) : encode i = w := by
  rw [encode, ← commandFields_of_decode h, fieldsWord_commandFields]

theorem decode_encode (i : Instr) : decode (encode i) = .ok i := by cases i <;> rfl

theorem encode_injective : Function.Injective encode := fun i j h =>
  Except.ok.inj ((decode_encode i).symm.trans ((congrArg decode h).trans (decode_encode j)))

/-! ## Lengths and offsets of the codecs -/

@[simp] theorem lowerAll_length (bs : List Byte) : (lowerAll bs).length = bs.length := by
  simp [lowerAll]

theorem lower_lower (b : Byte) : lower (lower b) = lower b := by
  unfold lower
  by_cases h : 0x41 ≤ b ∧ b ≤ 0x5A
  · rw [if_pos h, if_neg (by bv_omega)]
  · rw [if_neg h, if_neg h]

@[simp] theorem lowerAll_lowerAll (bs : List Byte) : lowerAll (lowerAll bs) = lowerAll bs := by
  simp [lowerAll, lower_lower]

@[simp] theorem foldInput_length (c : Codec) (bs : List Byte) : (foldInput c bs).length = bs.length := by
  cases c <;> simp [foldInput, folds]

@[simp] theorem encodeQuantum_length (c : Codec) (bs : List Byte) : (encodeQuantum c bs).length = 8 := by
  simp [encodeQuantum]

/-- The length of an encoding (R123). -/
theorem encodeBytes_length (c : Codec) (bs : List Byte) : (encodeBytes c bs).length = encodedLen bs.length := by
  induction bs using encodeBytes.induct with
  | case1 => rfl
  | case2 b0 b1 b2 b3 b4 rest ih =>
    simp only [encodeBytes, List.length_append, encodeQuantum_length, ih, encodedLen, List.length_cons]
    omega
  | case3 short hne hshort =>
    have hpos : 0 < short.length := List.length_pos_of_ne_nil hne
    have hlt : short.length < 5 := by
      match short, hshort with
      | [], _ | [_], _ | [_, _], _ | [_, _, _], _ | [_, _, _, _], _ => simp
      | b0 :: b1 :: b2 :: b3 :: b4 :: rest, hshort => exact (hshort b0 b1 b2 b3 b4 rest rfl).elim
    have henc : encodeBytes c short = encodeQuantum c short := by rw [encodeBytes] <;> assumption
    rw [henc, encodeQuantum_length, encodedLen]
    omega

/-- The bytes of a quantum are no more than its symbols determine (R101). -/
theorem quantumBytes_length_le (gs : List Group5) (j : Nat) : 8 * (quantumBytes gs j).length ≤ 5 * j := by
  simp only [quantumBytes, bytesOf, List.length_take, List.length_cons, List.length_nil]
  omega

/-- What closing a padded quantum can answer: an offset inside the input, or the quantum's bytes (R130). -/
theorem closePadded_cases (n i : Nat) (gs : List Group5) (rest : List Byte) :
    closePadded n i gs rest = .error n ∨ closePadded n i gs rest = .error i ∨
    closePadded n i gs rest = .ok (quantumBytes gs gs.length) := by
  unfold closePadded
  rcases paddingFault_cases n i (7 - gs.length) rest with ⟨hp, _⟩ | ⟨hp, _⟩ | ⟨hp, _⟩ <;> rw [hp]
  · dsimp only
    split
    · exact .inr (.inl rfl)
    · exact .inr (.inr rfl)
  · exact .inl rfl
  · exact .inr (.inl rfl)

/-- The scan of R129 reports an offset inside the input (R130), or gives at most five bytes for eight symbols. -/
theorem scan_bounds (c : Codec) (n i : Nat) (gs : List Group5) (bs : List Byte) (hn : i + bs.length ≤ n) :
    (∀ off, scan c n i gs bs = .error off → off ≤ n) ∧
    (∀ out, scan c n i gs bs = .ok out → 8 * out.length ≤ 5 * (gs.length + bs.length)) := by
  induction bs generalizing i gs with
  | nil =>
    by_cases h : gs.length = 0 <;> simp [scan, h]
  | cons b rest ih =>
    simp only [List.length_cons] at hn ⊢
    have hrec (gs' : List Group5) := ih (i + 1) gs' (by omega)
    rw [scan]
    split
    next =>
      have hq := quantumBytes_length_le gs gs.length
      rcases closePadded_cases n i gs rest with h | h | h <;> rw [h] <;> simp <;> omega
    split
    next =>
      simp; omega
    next v _ =>
      split
      next h7 =>
        obtain ⟨herr, hok⟩ := hrec []
        have hq := quantumBytes_length_le (gs ++ [v]) 8
        cases hs : scan c n (i + 1) [] rest with
        | error off => simpa using herr off hs
        | ok out =>
          have := hok out hs
          simp at this ⊢
          omega
      next =>
        obtain ⟨herr, hok⟩ := hrec (gs ++ [v])
        refine ⟨herr, fun out h => ?_⟩
        have := hok out h
        simp at this
        omega

/-- The offset of a corruption is at most the length of the input (R130, R134). -/
theorem decodeSymbols_error_le {c : Codec} {bs : List Byte} {off : Nat} (h : decodeSymbols c bs = .error off) :
    off ≤ bs.length :=
  (scan_bounds c bs.length 0 [] (foldInput c bs) (by simp)).1 off h

/-- A decode gives at most five bytes for eight symbols (R124, R134). -/
theorem decodeSymbols_ok_length {c : Codec} {bs out : List Byte} (h : decodeSymbols c bs = .ok out) :
    8 * out.length ≤ 5 * bs.length := by
  simpa using (scan_bounds c bs.length 0 [] (foldInput c bs) (by simp)).2 out h

end Sys2Proof.Machine

/-! SUPPORT. Everything a command and a step can do, said once; the proofs about states below go through `exec_outcome` and
`step_effect`. -/

namespace Sys2Proof.Machine

open Sys2Proof

/-! ## A command as one function of its operands

Every command reads its input and the expected checksum, then works on the state it begins in (R93).
`commandBody` is that work, and `exec_eq_next` ties it to the model's dispatch. -/

/-- The ENC command of a codec (R92). -/
def encoderOf : Codec → Instr
  | .std => .encStd
  | .ndau => .encNdau

/-- The DEC command of a codec (R92). -/
def decoderOf : Codec → Instr
  | .std => .decStd
  | .ndau => .decNdau

/-- The state after a candidate of Kind `k` with decoded bytes `d` passed step 7 (R184). -/
def recordValid (k : Kind) (d : List Byte) (s : State) : State :=
  { setMatch true (setCrc (crc16 (payload d)) s) with kind := kindByte k }

/-- The work of DEC on an input (R135, R136). -/
def decodeInto (c : Codec) (bs : List Byte) (s : State) : State :=
  match decodeSymbols c bs with
  | .error off => raise (.corrupt off) s
  | .ok out => emit out s

/-- The work of CONSTRUCT on an input (R186). -/
def constructInto (bs : List Byte) (s : State) : State :=
  if (runValidate bs s).result = 0 then holdAddress (lowerAll bs) (runValidate bs s) else runValidate bs s

/-- The work of a command on its input `bs` and expected checksum `e`, from the state it begins in. -/
def commandBody : Instr → List Byte → List Byte → State → State
  | .crc16, bs, _, s => emit (checksum16 bs) (setCrc (crc16 bs) s)
  | .crcchk, bs, e, s => setMatch (check bs e) (setCrc (crc16 bs) s)
  | .decStd, bs, _, s => decodeInto .std bs s
  | .decNdau, bs, _, s => decodeInto .ndau bs s
  | .encStd, bs, _, s => emit (encodeBytes .std bs) s
  | .encNdau, bs, _, s => emit (encodeBytes .ndau bs) s
  | .validate, bs, _, s => runValidate bs s
  | .construct, bs, _, s => constructInto bs s

/-- Every command answers a next state: its body, from the state it begins in (R93, R245). -/
theorem exec_eq_next (i : Instr) (s : State) :
    exec i s = .next (commandBody i (inputBytes s) (expectedChecksum s) (beginCommand s)) := by
  cases i with
  | construct => exact (apply_ite Host.Outcome.next _ _ _).symm
  | crc16 | crcchk | decStd | decNdau | encStd | encNdau | validate => rfl

/-- No command but CRCCHK uses the expected checksum (R26). -/
theorem commandBody_expected {i : Instr} (hi : i ≠ .crcchk) (bs e e' : List Byte) (s : State) :
    commandBody i bs e s = commandBody i bs e' s := by
  cases i with
  | crcchk => exact absurd rfl hi
  | crc16 | decStd | decNdau | encStd | encNdau | validate | construct => rfl

/-! ## recordValid, field by field -/

@[simp] theorem recordValid_cmd (k : Kind) (d : List Byte) (s : State) : (recordValid k d s).cmd = s.cmd := rfl
@[simp] theorem recordValid_ilen (k : Kind) (d : List Byte) (s : State) : (recordValid k d s).ilen = s.ilen := rfl
@[simp] theorem recordValid_ckexp (k : Kind) (d : List Byte) (s : State) : (recordValid k d s).ckexp = s.ckexp := rfl
@[simp] theorem recordValid_result (k : Kind) (d : List Byte) (s : State) :
    (recordValid k d s).result = s.result := rfl
@[simp] theorem recordValid_erroff (k : Kind) (d : List Byte) (s : State) :
    (recordValid k d s).erroff = s.erroff := rfl
@[simp] theorem recordValid_errbyte (k : Kind) (d : List Byte) (s : State) :
    (recordValid k d s).errbyte = s.errbyte := rfl
@[simp] theorem recordValid_crc (k : Kind) (d : List Byte) (s : State) :
    (recordValid k d s).crc = crc16 (payload d) := rfl
@[simp] theorem recordValid_olen (k : Kind) (d : List Byte) (s : State) : (recordValid k d s).olen = s.olen := rfl
@[simp] theorem recordValid_kind (k : Kind) (d : List Byte) (s : State) : (recordValid k d s).kind = kindByte k := rfl
@[simp] theorem recordValid_matched (k : Kind) (d : List Byte) (s : State) : (recordValid k d s).matched = true := rfl
@[simp] theorem recordValid_avalid (k : Kind) (d : List Byte) (s : State) :
    (recordValid k d s).avalid = s.avalid := rfl
@[simp] theorem recordValid_ibuf (k : Kind) (d : List Byte) (s : State) : (recordValid k d s).ibuf = s.ibuf := rfl
@[simp] theorem recordValid_obuf (k : Kind) (d : List Byte) (s : State) : (recordValid k d s).obuf = s.obuf := rfl
@[simp] theorem recordValid_addr (k : Kind) (d : List Byte) (s : State) : (recordValid k d s).addr = s.addr := rfl
@[simp] theorem recordValid_pending (k : Kind) (d : List Byte) (s : State) :
    (recordValid k d s).pending = s.pending := rfl
@[simp] theorem recordValid_reply (k : Kind) (d : List Byte) (s : State) : (recordValid k d s).reply = s.reply := rfl
@[simp] theorem recordValid_draws (k : Kind) (d : List Byte) (s : State) : (recordValid k d s).draws = s.draws := rfl

/-! ## What a command can do -/

/-- Whether a command is one of the two validator commands. -/
def IsValidator (i : Instr) : Prop := i = .validate ∨ i = .construct

theorem encoderOf_not_validator (c : Codec) : ¬ IsValidator (encoderOf c) := by
  cases c <;> simp [IsValidator, encoderOf]

theorem decoderOf_not_validator (c : Codec) : ¬ IsValidator (decoderOf c) := by
  cases c <;> simp [IsValidator, decoderOf]

/-- Everything a command can do with its input `bs` and expected checksum `e`, from the state `s` it begins in
(R93, R127, R135, R165, R166, R184, R186). -/
inductive BodyOutcome (i : Instr) (bs e : List Byte) (s : State) : State → Prop
  | checksummed (hi : i = .crc16) : BodyOutcome i bs e s (emit (checksum16 bs) (setCrc (crc16 bs) s))
  | compared (hi : i = .crcchk) : BodyOutcome i bs e s (setMatch (check bs e) (setCrc (crc16 bs) s))
  | encoded (c : Codec) (hi : i = encoderOf c) : BodyOutcome i bs e s (emit (encodeBytes c bs) s)
  | decoded (c : Codec) (hi : i = decoderOf c) (out : List Byte) (hd : decodeSymbols c bs = .ok out) :
      BodyOutcome i bs e s (emit out s)
  | corrupt (c : Codec) (hi : i = decoderOf c) (off : Nat) (hd : decodeSymbols c bs = .error off) :
      BodyOutcome i bs e s (raise (.corrupt off) s)
  | rejected (hi : IsValidator i) (f : Failure) (hd : decodeCandidate bs = .error f) :
      BodyOutcome i bs e s (raise f s)
  | mismatched (hi : IsValidator i) (k : Kind) (d : List Byte) (hd : decodeCandidate bs = .ok (k, d))
      (hs : suffixOk d = false) : BodyOutcome i bs e s (raise .badChecksum (setCrc (crc16 (payload d)) s))
  | validated (hi : i = .validate) (k : Kind) (d : List Byte) (hd : decodeCandidate bs = .ok (k, d))
      (hs : suffixOk d = true) : BodyOutcome i bs e s (recordValid k d s)
  | constructed (hi : i = .construct) (k : Kind) (d : List Byte) (hd : decodeCandidate bs = .ok (k, d))
      (hs : suffixOk d = true) : BodyOutcome i bs e s (holdAddress (lowerAll bs) (recordValid k d s))

theorem decodeInto_outcome (c : Codec) (bs e : List Byte) (s : State) :
    BodyOutcome (decoderOf c) bs e s (decodeInto c bs s) := by
  unfold decodeInto
  split
  next off h => exact .corrupt c rfl off h
  next out h => exact .decoded c rfl out h

theorem runValidate_outcome (bs e : List Byte) (s : State) :
    BodyOutcome .validate bs e s (runValidate bs s) := by
  rcases runValidate_cases bs s with ⟨f, hd, _, h⟩ | ⟨k, d, hd, hs, _, h⟩ | ⟨k, d, hd, hs, _, h⟩ <;> rw [h]
  · exact .rejected (.inl rfl) f hd
  · exact .mismatched (.inl rfl) k d hd hs
  · exact .validated rfl k d hd hs

theorem constructInto_outcome (bs e : List Byte) (s : State) (h0 : s.result = 0) :
    BodyOutcome .construct bs e s (constructInto bs s) := by
  unfold constructInto
  rcases runValidate_cases bs s with ⟨f, hd, _, h⟩ | ⟨k, d, hd, hs, _, h⟩ | ⟨k, d, hd, hs, _, h⟩ <;> rw [h]
  · rw [if_neg (by simpa using Failure.code_ne_zero f)]
    exact .rejected (.inr rfl) f hd
  · rw [if_neg (by simpa using Failure.code_ne_zero .badChecksum)]
    exact .mismatched (.inr rfl) k d hd hs
  · rw [if_pos (by simpa using h0)]
    exact .constructed rfl k d hd hs

theorem commandBody_outcome (i : Instr) (bs e : List Byte) (s : State) (h0 : s.result = 0) :
    BodyOutcome i bs e s (commandBody i bs e s) := by
  cases i with
  | crc16 => exact .checksummed rfl
  | crcchk => exact .compared rfl
  | encStd => exact .encoded .std rfl
  | encNdau => exact .encoded .ndau rfl
  | decStd => exact decodeInto_outcome .std bs e s
  | decNdau => exact decodeInto_outcome .ndau bs e s
  | validate => exact runValidate_outcome bs e s
  | construct => exact constructInto_outcome bs e s h0

/-- Everything a command can do, from any state: the one inversion every invariant uses. -/
theorem exec_outcome {i : Instr} {s u : State} (h : exec i s = .next u) :
    BodyOutcome i (inputBytes s) (expectedChecksum s) (beginCommand s) u := by
  rw [exec_eq_next] at h
  cases h
  exact commandBody_outcome i _ _ _ rfl

/-! ## What each outcome leaves, and what it writes -/

section
variable {i : Instr} {bs e : List Byte} {s u : State}

/-- No command writes CMD, ILEN, CKEXP, IBUF, nor the host's side (R24, R25, R26, R37). -/
theorem BodyOutcome.kept (h : BodyOutcome i bs e s u) :
    u.cmd = s.cmd ∧ u.ilen = s.ilen ∧ u.ckexp = s.ckexp ∧ u.ibuf = s.ibuf ∧ u.pending = s.pending ∧
    u.reply = s.reply ∧ u.draws = s.draws := by
  cases h <;> simp

/-- What a command leaves in OBUF and OLEN: one sequence, within the capacity, and its length (R38). -/
theorem BodyOutcome.output (h : BodyOutcome i bs e s u) (hobuf : s.obuf = []) (holen : s.olen = 0)
    (hbs : bs.length ≤ Config.ilenMax) :
    ∃ out, out.length ≤ Config.obufSize ∧ u.obuf = Memory.writeRun [] 0 out ∧
      u.olen = BitVec.ofNat 9 out.length := by
  simp only [Config.ilenMax] at hbs
  cases h with
  | checksummed => exact ⟨checksum16 bs, by simp [checksum16, bytesOfHalf, Config.obufSize], by simp [hobuf], rfl⟩
  | encoded c =>
    have hlen : (encodeBytes c bs).length ≤ Config.obufSize := by
      rw [encodeBytes_length, encodedLen, Config.obufSize]; omega
    exact ⟨_, hlen, by simp [hobuf], rfl⟩
  | decoded c hi out hd =>
    have hlen : out.length ≤ Config.obufSize := by
      have := decodeSymbols_ok_length hd
      rw [Config.obufSize]; omega
    exact ⟨out, hlen, by simp [hobuf], rfl⟩
  | compared | corrupt | rejected | mismatched | validated | constructed =>
    exact ⟨[], by simp, by simp [hobuf, Memory.writeRun], by simp [holen]⟩

/-- ADDR and AVALID stay, or a CONSTRUCT that ends with RESULT 0 writes them (R29, R39). -/
theorem BodyOutcome.address (h : BodyOutcome i bs e s u) :
    (u.addr = s.addr ∧ u.avalid = s.avalid ∧ (i = .construct → u.result ≠ 0)) ∨
    (i = .construct ∧ u.result = s.result ∧ u.addr = s.addr.writeRun 0 (lowerAll bs) ∧ u.avalid = true ∧
      ∃ k d, decodeCandidate bs = .ok (k, d) ∧ suffixOk d = true) := by
  cases h with
  | constructed hi k d hd hs => exact .inr ⟨hi, rfl, rfl, rfl, k, d, hd, hs⟩
  | checksummed hi | compared hi | validated hi => exact .inl ⟨rfl, rfl, by simp [hi]⟩
  | encoded c hi | decoded c hi => exact .inl ⟨rfl, rfl, by cases c <;> simp [hi, encoderOf, decoderOf]⟩
  | corrupt | rejected | mismatched => exact .inl ⟨by simp, by simp, by simpa using fun _ => Failure.code_ne_zero _⟩

/-- CRC stays, or the command computes a checksum (R32); a validation computes one exactly when it reaches step 7. -/
theorem BodyOutcome.crc (h : BodyOutcome i bs e s u) (h0 : s.result = 0) :
    u.crc = s.crc ∨ i = .crc16 ∨ i = .crcchk ∨ (IsValidator i ∧ (u.result = 0 ∨ u.result = 5)) := by
  cases h with
  | checksummed hi => exact .inr (.inl hi)
  | compared hi => exact .inr (.inr (.inl hi))
  | encoded | decoded => exact .inl rfl
  | corrupt | rejected => exact .inl (by simp)
  | mismatched hi => exact .inr (.inr (.inr ⟨hi, .inr (by simp [Failure.code])⟩))
  | validated hi => exact .inr (.inr (.inr ⟨.inl hi, .inl h0⟩))
  | constructed hi => exact .inr (.inr (.inr ⟨.inr hi, .inl h0⟩))

/-- VALIDATE and CONSTRUCT ending with RESULT 0 leave the checksum of the payload in CRC (R184). -/
theorem BodyOutcome.crc_of_valid (h : BodyOutcome i bs e s u) (hi : IsValidator i) (h0 : u.result = 0) :
    ∃ k d, decodeCandidate bs = .ok (k, d) ∧ u.crc = crc16 (payload d) := by
  cases h with
  | checksummed hi' | compared hi' => simp [IsValidator, hi'] at hi
  | encoded c hi' => exact absurd (hi' ▸ hi) (encoderOf_not_validator c)
  | decoded c hi' | corrupt c hi' => exact absurd (hi' ▸ hi) (decoderOf_not_validator c)
  | rejected | mismatched => exact absurd (raise_result _ _ ▸ h0) (Failure.code_ne_zero _)
  | validated _ k d hd | constructed _ k d hd => exact ⟨k, d, hd, rfl⟩

end

/-- A command changes OBUF, ADDR, CRC, AVALID and the result group only; the free values of its unwritten input
bytes are used up (R24 to R26, R37, R93, U5). -/
theorem exec_kept {i : Instr} {s u : State} (h : exec i s = .next u) :
    u.cmd = s.cmd ∧ u.ilen = s.ilen ∧ u.ckexp = s.ckexp ∧ u.ibuf = s.ibuf ∧ u.pending = s.pending ∧
    u.reply = s.reply ∧ u.draws = drawsAfterInput s :=
  (exec_outcome h).kept

/-! ## What one step can do -/

/-- Everything one step can do (R72): nothing, a reset, a command, an illegal word, a write of a register or of a
byte, or a read. -/
inductive StepEffect (s : State) : State → Prop
  | idle (hp : s.pending = []) : StepEffect s s
  | reset (rest : List HostTx) (hp : s.pending = .reset :: rest) : StepEffect s (resetBlock (takeTransaction rest s))
  | command (w : Half) (rest : List HostTx) (i : Instr) (u : State) (hp : s.pending = .writeReg 0 w :: rest)
      (hd : decode w = .ok i) (hu : exec i (latchCommand w (takeTransaction rest s)) = .next u) : StepEffect s u
  | illegal (w : Half) (rest : List HostTx) (e : DecodeReject) (hp : s.pending = .writeReg 0 w :: rest)
      (hd : decode w = .error e) : StepEffect s (runIllegal (latchCommand w (takeTransaction rest s)))
  | registerWrite (r : BitVec 4) (v : Half) (rest : List HostTx) (n : BitVec 8) (ck : Half)
      (hp : s.pending = .writeReg r v :: rest) (hr : r ≠ 0) :
      StepEffect s { takeTransaction rest s with ilen := n, ckexp := ck }
  | bufferWrite (j : BitVec 8) (b : Byte) (rest : List HostTx) (hp : s.pending = .writeIbuf j b :: rest) :
      StepEffect s (hostWriteIbuf j b (takeTransaction rest s))
  | read (tx : HostTx) (rest : List HostTx) (reply : HostReply) (draws : Nat) (hp : s.pending = tx :: rest) :
      StepEffect s { s with pending := rest, reply := reply, draws := draws }

/-- A read of a register writes the reply and the draw counter only (R62). -/
theorem hostReadReg_eq (r : BitVec 4) (s : State) :
    ∃ reply draws, hostReadReg r s = { s with reply := reply, draws := draws } := by
  unfold hostReadReg
  split
  · exact ⟨_, _, rfl⟩
  · exact ⟨_, _, rfl⟩

/-- A write of a register other than CMD reaches ILEN and CKEXP only (R62, R63). -/
theorem writeReg_eq (r : BitVec 4) (v : Half) (s : State) :
    ∃ n ck, writeReg r v s = { s with ilen := n, ckexp := ck } := by
  rcases writeReg_cases r v s with ⟨_, hw⟩ | ⟨_, hw⟩ | ⟨_, _, hw⟩
  · exact ⟨_, _, hw⟩
  · exact ⟨_, _, hw⟩
  · exact ⟨_, _, hw⟩

theorem step_effect {s u : State} (h : step s = .next u) : StepEffect s u := by
  cases hp : s.pending with
  | nil =>
    rw [step_idle s hp] at h
    cases h; exact .idle hp
  | cons tx rest =>
    rw [step_transaction s tx rest hp] at h
    cases tx with
    | reset => cases h; exact .reset rest hp
    | readReg r =>
      obtain ⟨reply, draws, hr⟩ := hostReadReg_eq r (takeTransaction rest s)
      rw [runTransaction, hr] at h
      cases h; exact .read _ rest reply draws hp
    | writeReg r v =>
      rw [runTransaction] at h
      by_cases hr : r = 0
      · subst hr
        rw [hostWriteReg_cmd] at h
        rcases startCommand_cases v (takeTransaction rest s) with ⟨i, hd, hs⟩ | ⟨e, hd, hs⟩ <;> rw [hs] at h
        · exact .command v rest i u hp hd h
        · cases h; exact .illegal v rest e hp hd
      · obtain ⟨n, ck, hw⟩ := writeReg_eq r v (takeTransaction rest s)
        rw [hostWriteReg_other r v _ hr, hw] at h
        cases h; exact .registerWrite r v rest n ck hp hr
    | writeIbuf j b => cases h; exact .bufferWrite j b rest hp
    | readIbuf | readObuf | readAddr => cases h; exact .read _ rest _ _ hp

end Sys2Proof.Machine

/-! SUPPORT. The invariants of the state: legal registers, canonical buffers, a valid held address. -/

namespace Sys2Proof.Machine

open Sys2Proof

/-! ## The reset state (R43) -/

theorem reset_registersLegal : RegistersLegal State.reset := by decide

theorem reset_buffersCanonical : BuffersCanonical State.reset := by simp [BuffersCanonical, State.reset]

theorem reset_outputSpecified : OutputSpecified State.reset := by simp [OutputSpecified, State.reset]

theorem reset_addressHeld : AddressHeld State.reset := by simp [AddressHeld, State.reset]

/-- Settles O58, by the values of the reset state. -/
theorem resetMeetsInvariants : Obligations.ResetMeetsInvariants := by
  unfold Obligations.ResetMeetsInvariants
  exact ⟨reset_registersLegal, reset_buffersCanonical, reset_outputSpecified, reset_addressHeld⟩

/-! ## The registers stay legal (R44) -/

/-- What a failure records over a neutral result group (R211, R212). -/
theorem raise_failedWith {f : Failure} {s : State} (herr : s.erroff = 0xFFFF) (hbyte : s.errbyte = 0x00)
    (hoff : ∀ off, f = .corrupt off → off ≤ Config.ilenMax) : FailedWith (raise f s) f := by
  cases f with
  | corrupt off =>
    have : off ≤ 255 := hoff off rfl
    refine ⟨rfl, ?_, hbyte⟩
    simp only [raise, BitVec.toNat_ofNat]
    omega
  | badKind b => exact ⟨rfl, herr, rfl⟩
  | badPrefix | badLength | badChecksum | illegalCommand => exact ⟨rfl, herr, hbyte⟩

theorem kindByte_ne_zero (k : Kind) : kindByte k ≠ 0 := by cases k <;> decide

@[simp] theorem parseKind_kindByte (k : Kind) : parseKind (kindByte k) = some k := by cases k <;> rfl

section
variable {u : State}

/-- A command that completes and is no validator command leaves legal registers. -/
theorem registersLegal_of_completed (hn : NoFailure u) (hlen : u.olen.toNat ≤ Config.obufSize) (hk : u.kind = 0)
    (hv : u.cmd ≠ encode .validate) (hc : u.cmd ≠ encode .construct) : RegistersLegal u := by
  obtain ⟨hr, herr, hbyte⟩ := hn
  simp [RegistersLegal, hr, herr, hbyte, hk, hv, hc, hlen, Failure.code]

/-- A command that fails leaves legal registers. -/
theorem registersLegal_of_failed {f : Failure} (hf : FailedWith u f) (ho : u.olen = 0) (hk : u.kind = 0)
    (hoff : ∀ off, f = .corrupt off → off ≤ Config.ilenMax) : RegistersLegal u := by
  cases f with
  | corrupt off =>
    obtain ⟨hr, herr, hbyte⟩ := hf
    have hle : u.erroff.toNat ≤ Config.ilenMax := herr ▸ hoff off rfl
    have hne : u.erroff ≠ 0xFFFF := by
      intro h
      rw [h] at hle
      exact absurd hle (by decide)
    simpa [RegistersLegal, hr, hbyte, ho, hk, hle, Failure.code] using hne
  | badPrefix | badLength | badKind | badChecksum | illegalCommand =>
    obtain ⟨hr, herr, hbyte⟩ := hf
    simp [RegistersLegal, hr, herr, hbyte, ho, hk, Failure.code]

/-- A validator command whose candidate is valid leaves legal registers. -/
theorem registersLegal_of_valid {k : Kind} (hn : NoFailure u) (ho : u.olen = 0) (hk : u.kind = kindByte k)
    (hm : u.matched = true) (hc : u.cmd = encode .validate ∨ u.cmd = encode .construct) : RegistersLegal u := by
  obtain ⟨hr, herr, hbyte⟩ := hn
  simpa [RegistersLegal, hr, herr, hbyte, ho, hk, hm, hc, Failure.code] using kindByte_ne_zero k

end

theorem encode_ne_of_not_validator {i : Instr} (hi : ¬ IsValidator i) :
    encode i ≠ encode .validate ∧ encode i ≠ encode .construct :=
  ⟨fun h => hi (.inl (encode_injective h)), fun h => hi (.inr (encode_injective h))⟩

theorem input_length_le_ilenMax (s : State) : (inputBytes s).length ≤ Config.ilenMax := by
  rw [inputBytes_length, Config.ilenMax]
  omega

/-- What a command leaves in OBUF and OLEN (R33, R38). -/
theorem exec_output {i : Instr} {s u : State} (h : exec i s = .next u) :
    ∃ out, out.length ≤ Config.obufSize ∧ u.obuf = Memory.writeRun [] 0 out ∧
      u.olen = BitVec.ofNat 9 out.length :=
  (exec_outcome h).output rfl rfl (input_length_le_ilenMax s)

/-- OLEN holds the length of an output that fits OBUF. -/
theorem toNat_olen_of_fits {n : Nat} (h : n ≤ Config.obufSize) : (BitVec.ofNat 9 n).toNat = n := by
  rw [Config.obufSize] at h
  rw [BitVec.toNat_ofNat]
  omega

/-- Whatever the registers held, a command leaves them legal when CMD holds its word. -/
theorem exec_registersLegal {i : Instr} {s u : State} (h : exec i s = .next u) (hcmd : s.cmd = encode i) :
    RegistersLegal u := by
  have hkept : u.cmd = encode i := (exec_kept h).1.trans hcmd
  have hlen : u.olen.toNat ≤ Config.obufSize := by
    obtain ⟨out, hfit, _, holen⟩ := exec_output h
    rw [holen, toNat_olen_of_fits hfit]
    exact hfit
  have hcompleted (hi : ¬ IsValidator i) (hn : NoFailure u) (hk : u.kind = 0) : RegistersLegal u := by
    obtain ⟨hv, hc⟩ := encode_ne_of_not_validator hi
    exact registersLegal_of_completed hn hlen hk (hkept ▸ hv) (hkept ▸ hc)
  cases exec_outcome h with
  | checksummed hi | compared hi => exact hcompleted (by simp [hi, IsValidator]) ⟨rfl, rfl, rfl⟩ rfl
  | encoded c hi => exact hcompleted (hi ▸ encoderOf_not_validator c) ⟨rfl, rfl, rfl⟩ rfl
  | decoded c hi => exact hcompleted (hi ▸ decoderOf_not_validator c) ⟨rfl, rfl, rfl⟩ rfl
  | corrupt c hi off hd =>
    have hoff : ∀ o, Failure.corrupt off = .corrupt o → o ≤ Config.ilenMax := by
      rintro _ ⟨⟩
      exact (decodeSymbols_error_le hd).trans (input_length_le_ilenMax s)
    exact registersLegal_of_failed (raise_failedWith rfl rfl hoff) rfl rfl hoff
  | rejected hi f hd =>
    have hoff : ∀ o, f = .corrupt o → o ≤ Config.ilenMax := by
      rintro o rfl
      rcases decodeCandidate_error _ _ hd with hf | hf | ⟨b, hf⟩ | ⟨off, hf, hdec⟩ <;> cases hf
      have := decodeSymbols_error_le hdec
      rw [lowerAll_length] at this
      exact this.trans (input_length_le_ilenMax s)
    exact registersLegal_of_failed (raise_failedWith rfl rfl hoff) (by simp) (by simp) hoff
  | mismatched =>
    have hoff : ∀ o, Failure.badChecksum = .corrupt o → o ≤ Config.ilenMax := by simp
    exact registersLegal_of_failed (raise_failedWith rfl rfl hoff) rfl rfl hoff
  | validated hi k => exact registersLegal_of_valid (k := k) ⟨rfl, rfl, rfl⟩ rfl rfl rfl (.inl (hi ▸ hkept))
  | constructed hi k => exact registersLegal_of_valid (k := k) ⟨rfl, rfl, rfl⟩ rfl rfl rfl (.inr (hi ▸ hkept))

/-- An illegal word leaves the registers legal (R94). -/
theorem runIllegal_registersLegal (s : State) : RegistersLegal (runIllegal s) := by
  have hoff : ∀ o, Failure.illegalCommand = .corrupt o → o ≤ Config.ilenMax := by simp
  exact registersLegal_of_failed (raise_failedWith rfl rfl hoff) rfl rfl hoff

/-- Settles O55, by the cases of a step: a command, an illegal word and a reset leave legal registers from any state,
and every other transaction writes none of the registers the invariant is about. -/
theorem stepKeepsRegistersLegal : Obligations.StepKeepsRegistersLegal := by
  unfold Obligations.StepKeepsRegistersLegal
  intro s u hs h
  cases step_effect h with
  | idle => exact hs
  | reset rest => exact reset_registersLegal
  | command w rest i _ hp hd hu => exact exec_registersLegal hu (encode_of_decode hd).symm
  | illegal => exact runIllegal_registersLegal _
  | registerWrite | bufferWrite | read => exact hs

/-! ## The buffers stay canonical (R38, R60) -/

/-- An emission into the empty buffer is canonical, within the capacity, and specified exactly below its length. -/
theorem emission_canonical {out : List Byte} (hfit : out.length ≤ Config.obufSize) :
    (Memory.writeRun [] 0 out).wf ∧ (Memory.writeRun [] 0 out).within Config.obufSize ∧
    ∀ j, ((Memory.writeRun [] 0 out).read j).isSome = true ↔ j < out.length := by
  refine ⟨Memory.writeRun_wf out 0 Memory.nil_wf, Memory.writeRun_within out (by omega) (Memory.nil_within _), ?_⟩
  intro j
  rw [Memory.read_writeRun_nil, Option.isSome_iff_ne_none, ne_eq, List.getElem?_eq_none_iff, not_le]

theorem exec_keeps_buffers {i : Instr} {s u : State} (h : exec i s = .next u) (hs : BuffersCanonical s) :
    BuffersCanonical u ∧ OutputSpecified u := by
  obtain ⟨hibuf, _, hwf, hin⟩ := hs
  obtain ⟨_, _, _, hik, _⟩ := exec_kept h
  obtain ⟨out, hfit, hobuf, holen⟩ := exec_output h
  obtain ⟨howf, hoin, hospec⟩ := emission_canonical hfit
  have haddr : u.addr.wf ∧ u.addr.within Config.addrSize := by
    rcases (exec_outcome h).address with ⟨ha, _⟩ | ⟨_, _, ha, _, k, d, hd, _⟩ <;> rw [ha]
    · exact ⟨hwf, hin⟩
    · obtain ⟨_, hlen, _⟩ := decodeCandidate_ok _ _ _ hd
      exact ⟨Memory.writeRun_wf _ 0 hwf, Memory.writeRun_within _ (by simp [hlen, Config.addrSize]) hin⟩
  refine ⟨⟨hik ▸ hibuf, hobuf ▸ ⟨howf, hoin⟩, haddr⟩, ?_⟩
  intro j
  rw [hobuf, holen, toNat_olen_of_fits hfit]
  exact hospec j

/-- Settles O56, by the cases of a step: a command emits into an empty OBUF, a CONSTRUCT writes 48 bytes of ADDR, and
a host write reaches IBUF below its capacity. -/
theorem stepKeepsBuffersCanonical : Obligations.StepKeepsBuffersCanonical := by
  unfold Obligations.StepKeepsBuffersCanonical
  intro s u hs ho h
  cases step_effect h with
  | idle => exact ⟨hs, ho⟩
  | reset rest => exact ⟨reset_buffersCanonical, reset_outputSpecified⟩
  | command w rest i _ hp hd hu => exact exec_keeps_buffers hu hs
  | illegal =>
    obtain ⟨hibuf, _, haddr⟩ := hs
    exact ⟨⟨hibuf, by simp [runIllegal], haddr⟩, by simp [OutputSpecified, runIllegal]⟩
  | bufferWrite j b rest =>
    obtain ⟨⟨hwf, hin⟩, hrest⟩ := hs
    have hj : j.toNat < Config.ibufSize := j.isLt
    exact ⟨⟨⟨Memory.write_wf _ b hwf, Memory.write_within b hj hin⟩, hrest⟩, ho⟩
  | registerWrite | read => exact ⟨hs, ho⟩

/-! ## The held address stays valid (R188) -/

theorem hasPrefix_bytes {bs : List Byte} (h : hasPrefix bs = true) : bs.getD 0 0 = 0x6E ∧ bs.getD 1 0 = 0x64 := by
  match bs with
  | [] | [_] => simp [hasPrefix] at h
  | b0 :: b1 :: rest => simpa [hasPrefix] using h

/-- Case plays no part in the steps that decode a candidate (R182, R192). -/
theorem decodeCandidate_lowerAll (bs : List Byte) : decodeCandidate (lowerAll bs) = decodeCandidate bs := by
  simp only [decodeCandidate, lowerAll_lowerAll]

theorem suffixOk_iff (d : List Byte) : suffixOk d = true ↔ suffix d = checksum16 (payload d) := by
  rw [suffixOk, check, decide_eq_true_iff, eq_comm]

/-- A candidate that passes the seven steps is, lower-cased, a valid address (R188). -/
theorem addressValid_lowerAll {bs d : List Byte} {k : Kind} (hd : decodeCandidate bs = .ok (k, d))
    (hs : suffixOk d = true) : AddressValid (lowerAll bs) := by
  obtain ⟨hpre, hlen, hkind, hdec⟩ := decodeCandidate_ok _ _ _ hd
  obtain ⟨h0, h1⟩ := hasPrefix_bytes hpre
  have hval : validate (lowerAll bs) = .ok k := by
    simp [validate, decodeCandidate_lowerAll, hd, hs]
  exact ⟨h0, h1, by simp [hlen], k, d, hkind, hdec, (suffixOk_iff d).1 hs, lowerAll_lowerAll bs, hval⟩

/-- The 48 bytes a CONSTRUCT writes are the held address (R187). -/
theorem heldAddress_of_writeRun {u : State} {m : Memory} {bs : List Byte} (ha : u.avalid = true)
    (hm : u.addr = m.writeRun 0 bs) (hlen : bs.length = 48) : heldAddress u = some bs := by
  rw [heldAddress, if_pos ha, hm, Memory.readRun_eq_some]
  refine ⟨hlen, fun j hj => ?_⟩
  rw [Config.addrSize] at hj
  rw [Memory.read_writeRun, if_pos (by omega)]
  simp

/-- A CONSTRUCT that ends with RESULT 0 holds its lower-cased input (R186, R187). -/
theorem BodyOutcome.heldAddress_of_construct {i : Instr} {bs e : List Byte} {s u : State}
    (h : BodyOutcome i bs e s u) (hi : i = .construct) (h0 : u.result = 0) : heldAddress u = some (lowerAll bs) := by
  rcases h.address with ⟨_, _, hne⟩ | ⟨_, _, ha, hv, k, d, hd, _⟩
  · exact absurd h0 (hne hi)
  · obtain ⟨_, hlen, _⟩ := decodeCandidate_ok _ _ _ hd
    exact heldAddress_of_writeRun hv ha (by simp [hlen])

theorem exec_keeps_address {i : Instr} {s u : State} (h : exec i s = .next u) (hs : AddressHeld s) :
    AddressHeld u := by
  intro hav
  rcases (exec_outcome h).address with ⟨ha, hv, _⟩ | ⟨_, _, ha, hv, k, d, hd, hsuf⟩
  · simp only [beginCommand_addr, beginCommand_avalid] at ha hv
    rw [heldAddress, ha, hv]
    exact hs (hv ▸ hav)
  · obtain ⟨_, hlen, _⟩ := decodeCandidate_ok _ _ _ hd
    exact ⟨_, heldAddress_of_writeRun hv ha (by simp [hlen]), addressValid_lowerAll hd hsuf⟩

/-- Settles O57, by the cases of a step: a CONSTRUCT holds only a candidate that passed the seven steps, a reset
holds none, and no other transaction writes ADDR or AVALID. -/
theorem stepKeepsAddressHeld : Obligations.StepKeepsAddressHeld := by
  unfold Obligations.StepKeepsAddressHeld
  intro s u hs h
  cases step_effect h with
  | idle => exact hs
  | reset rest => exact reset_addressHeld
  | command w rest i _ hp hd hu => exact exec_keeps_address hu hs
  | illegal => exact hs
  | registerWrite | bufferWrite | read => exact hs

end Sys2Proof.Machine

/-! SUPPORT. What a command reads and leaves: its input, its operands, the results before it, the held address and CRC. -/

namespace Sys2Proof.Machine

open Sys2Proof

/-! ## The input of a command (R25, R91, U5) -/

/-- One free value is drawn for each unwritten input byte (U5). -/
theorem drawsAfterInput_eq (s : State) :
    drawsAfterInput s = s.draws + unwrittenBelow s.ibuf s.ilen.toNat := by
  simpa [drawsAfterInput, unwrittenBelow] using fetchRun_draws s.ibuf s.ilen.toNat 0 s.draws

/-- Byte `j` of the input, with the free values of the unwritten bytes below it drawn (U5). -/
theorem inputBytes_getElem (s : State) {j : Nat} (hj : j < s.ilen.toNat) :
    (inputBytes s)[j]? = some (fetchByte s.ibuf j (s.draws + unwrittenBelow s.ibuf j)).1 := by
  have hdraws : (fetchRun s.ibuf 0 j s.draws).2 = s.draws + unwrittenBelow s.ibuf j := by
    simpa [unwrittenBelow] using fetchRun_draws s.ibuf j 0 s.draws
  rw [inputBytes, fetchRun_getElem _ _ _ _ _ hj, hdraws, Nat.zero_add]

/-- Settles O6, byte by byte: a written byte is fetched, an unwritten one drawn after those below it. -/
theorem inputSequenceReadsBuffer : Obligations.InputSequenceReadsBuffer := by
  unfold Obligations.InputSequenceReadsBuffer
  intro s
  refine ⟨inputBytes_length s, drawsAfterInput_eq s, fun j hj => ⟨fun b hb => ?_, fun hnone => ?_⟩⟩
  · rw [inputBytes_getElem s hj, fetchByte_written _ hb]
  · rw [inputBytes_getElem s hj, fetchByte_unwritten _ hnone]

/-- The input depends on ILEN, the draw counter and the bytes of IBUF below ILEN (R37, R91). -/
theorem fetchInput_congr {s u : State} (hilen : u.ilen = s.ilen) (hdraws : u.draws = s.draws)
    (hbuf : ∀ j, j < s.ilen.toNat → u.ibuf.read j = s.ibuf.read j) :
    inputBytes u = inputBytes s ∧ drawsAfterInput u = drawsAfterInput s := by
  have hrun : fetchRun u.ibuf 0 s.ilen.toNat s.draws = fetchRun s.ibuf 0 s.ilen.toNat s.draws :=
    fetchRun_congr s.draws (by simpa using hbuf)
  simp only [inputBytes, drawsAfterInput, hilen, hdraws, hrun, and_self]

/-! ## What a command leaves -/

/-- Settles O7, by the outcomes of a command. -/
theorem commandsEndAndKeepOperands : Obligations.CommandsEndAndKeepOperands := by
  unfold Obligations.CommandsEndAndKeepOperands
  intro i s
  have h := exec_eq_next i s
  obtain ⟨hcmd, hilen, hckexp, hibuf, hpending, hreply, hdraws⟩ := exec_kept h
  exact ⟨_, h, ⟨hcmd, hilen, hckexp, fun j => by rw [hibuf]⟩, ⟨hpending, hreply⟩,
    hdraws.trans (drawsAfterInput_eq s)⟩

/-! ## What a command does not read -/

/-- The state with other contents of IBUF and CKEXP. -/
def withOperands (m : Memory) (v : Half) (s : State) : State := { s with ibuf := m, ckexp := v }

section
variable (m : Memory) (v : Half) (s : State)

theorem raise_withOperands (f : Failure) : raise f (withOperands m v s) = withOperands m v (raise f s) := by
  cases f <;> rfl

theorem runValidate_withOperands (bs : List Byte) :
    runValidate bs (withOperands m v s) = withOperands m v (runValidate bs s) := by
  unfold runValidate
  split
  next => exact raise_withOperands m v s _
  next =>
    split
    · rfl
    · rfl

theorem decodeInto_withOperands (c : Codec) (bs : List Byte) :
    decodeInto c bs (withOperands m v s) = withOperands m v (decodeInto c bs s) := by
  unfold decodeInto
  split
  · rfl
  · rfl

theorem constructInto_withOperands (bs : List Byte) :
    constructInto bs (withOperands m v s) = withOperands m v (constructInto bs s) := by
  unfold constructInto
  rw [runValidate_withOperands, apply_ite (withOperands m v)]
  rfl

/-- The work of a command neither reads nor writes IBUF and CKEXP: they are read before it begins (R93). -/
theorem commandBody_withOperands (i : Instr) (bs e : List Byte) :
    commandBody i bs e (withOperands m v s) = withOperands m v (commandBody i bs e s) := by
  cases i with
  | crc16 | crcchk | encStd | encNdau => rfl
  | decStd => exact decodeInto_withOperands m v s .std bs
  | decNdau => exact decodeInto_withOperands m v s .ndau bs
  | validate => exact runValidate_withOperands m v s bs
  | construct => exact constructInto_withOperands m v s bs

variable {m v s}

/-- A command runs alike from another IBUF that agrees below ILEN, and, if it is not CRCCHK, another CKEXP. -/
theorem exec_withOperands {i : Instr} (hbuf : ∀ j, j < s.ilen.toNat → m.read j = s.ibuf.read j)
    (hck : i = .crcchk → v = s.ckexp) :
    ∃ u, exec i s = .next u ∧ exec i (withOperands m v s) = .next (withOperands m v u) := by
  refine ⟨_, exec_eq_next i s, ?_⟩
  obtain ⟨hin, hdraws⟩ := fetchInput_congr (s := s) (u := withOperands m v s) rfl rfl hbuf
  have hbegin : beginCommand (withOperands m v s) = withOperands m v (beginCommand s) :=
    congrArg (fun k => { withOperands m v (prologue s) with draws := k }) hdraws
  have hexp : commandBody i (inputBytes s) (expectedChecksum (withOperands m v s)) (beginCommand s) =
      commandBody i (inputBytes s) (expectedChecksum s) (beginCommand s) := by
    by_cases hi : i = .crcchk
    · rw [hck hi]; rfl
    · exact commandBody_expected hi _ _ _ _
  rw [exec_eq_next, hin, hbegin, commandBody_withOperands, hexp]

end

/-- Settles O8: the input is the same, and the work of a command does not touch IBUF. -/
theorem bytesBeyondIlenIgnored : Obligations.BytesBeyondIlenIgnored := by
  unfold Obligations.BytesBeyondIlenIgnored
  intro i s m hbuf
  obtain ⟨u, hu, hm⟩ := exec_withOperands (v := s.ckexp) (i := i) hbuf (fun _ => rfl)
  obtain ⟨_, _, hckexp, _⟩ := exec_kept hu
  refine ⟨u, hu, hm.trans ?_⟩
  rw [withOperands, ← hckexp]

/-- Settles O9: only the body of CRCCHK uses the expected checksum. -/
theorem ckexpReadOnlyByCrcchk : Obligations.CkexpReadOnlyByCrcchk := by
  unfold Obligations.CkexpReadOnlyByCrcchk
  intro i s v hi
  obtain ⟨u, hu, hv⟩ := exec_withOperands (m := s.ibuf) (v := v) (i := i) (fun _ _ => rfl) (fun h => absurd h hi)
  obtain ⟨_, _, _, hibuf, _⟩ := exec_kept hu
  refine ⟨u, hu, hv.trans ?_⟩
  rw [withOperands, ← hibuf]

/-! ## What earlier results do not influence (R29, R32, R45) -/

/-- Two states with the same result group, output and draw counter. -/
structure SameResults (s u : State) : Prop where
  result : u.result = s.result
  erroff : u.erroff = s.erroff
  errbyte : u.errbyte = s.errbyte
  olen : u.olen = s.olen
  kind : u.kind = s.kind
  matched : u.matched = s.matched
  obuf : u.obuf = s.obuf
  draws : u.draws = s.draws

namespace SameResults

variable {s u : State} (h : SameResults s u)
include h

theorem setCrc (a b : Half) : SameResults (setCrc a s) (setCrc b u) := { h with }

theorem setMatch (b : Bool) : SameResults (setMatch b s) (setMatch b u) := { h with matched := rfl }

theorem holdAddress (bs : List Byte) : SameResults (holdAddress bs s) (holdAddress bs u) := { h with }

theorem emit (bs : List Byte) : SameResults (emit bs s) (emit bs u) :=
  { h with obuf := congrArg (Memory.writeRun · 0 bs) h.obuf, olen := rfl }

theorem recordValid (k : Kind) (d : List Byte) : SameResults (recordValid k d s) (recordValid k d u) :=
  { h with matched := rfl, kind := rfl }

theorem raise (f : Failure) : SameResults (raise f s) (raise f u) := by
  cases f with
  | badKind b => exact { h with result := rfl, errbyte := rfl }
  | corrupt off => exact { h with result := rfl, erroff := rfl }
  | badPrefix | badLength | badChecksum | illegalCommand => exact { h with result := rfl }

theorem decodeInto (c : Codec) (bs : List Byte) : SameResults (decodeInto c bs s) (decodeInto c bs u) := by
  unfold Machine.decodeInto
  split
  · exact h.raise _
  · exact h.emit _

theorem runValidate (bs : List Byte) : SameResults (runValidate bs s) (runValidate bs u) := by
  unfold Machine.runValidate
  split
  next => exact h.raise _
  next k d _ =>
    split
    · exact h.recordValid k d
    · exact (h.setCrc _ _).raise _

theorem constructInto (bs : List Byte) : SameResults (constructInto bs s) (constructInto bs u) := by
  have hv := h.runValidate bs
  unfold Machine.constructInto
  rw [hv.result]
  split
  · exact hv.holdAddress _
  · exact hv

/-- The work of a command writes the same results from any two states with the same results. -/
theorem commandBody (i : Instr) (bs e : List Byte) : SameResults (commandBody i bs e s) (commandBody i bs e u) := by
  cases i with
  | crc16 => exact (h.setCrc _ _).emit _
  | crcchk => exact (h.setCrc _ _).setMatch _
  | encStd | encNdau => exact h.emit _
  | decStd | decNdau => exact h.decodeInto _ bs
  | validate => exact h.runValidate bs
  | construct => exact h.constructInto bs

end SameResults

/-- CRC16 and CRCCHK leave the checksum of their input in CRC (R165, R166). -/
theorem commandBody_crc_of_checksum {i : Instr} (hi : i = .crc16 ∨ i = .crcchk) (bs e : List Byte) (s : State) :
    (commandBody i bs e s).crc = crc16 bs := by
  rcases hi with rfl | rfl
  · rfl
  · rfl

/-- The CRC of a candidate that is valid is the same from any two states (R32, R184). -/
theorem BodyOutcome.crc_eq_of_valid {i : Instr} {bs e : List Byte} {s u s' u' : State} (h : BodyOutcome i bs e s u)
    (h' : BodyOutcome i bs e s' u') (hi : IsValidator i) (hres : u'.result = u.result) (h0 : u.result = 0) :
    u'.crc = u.crc := by
  obtain ⟨k, d, hd, hcrc⟩ := h.crc_of_valid hi h0
  obtain ⟨k', d', hd', hcrc'⟩ := h'.crc_of_valid hi (hres.trans h0)
  cases hd.symm.trans hd'
  exact hcrc'.trans hcrc.symm

/-- Settles O40: the state a command begins in has the same results whatever stood before, and what the command writes
beyond the results is a function of its input. -/
theorem commandIgnoresEarlierResults : Obligations.CommandIgnoresEarlierResults := by
  unfold Obligations.CommandIgnoresEarlierResults
  intro i s u hilen hckexp hbuf hdraws
  obtain ⟨hin, hafter⟩ := fetchInput_congr hilen hdraws (fun j _ => hbuf j)
  have hexp : expectedChecksum u = expectedChecksum s := by rw [expectedChecksum, hckexp, expectedChecksum]
  have hbegin : SameResults (beginCommand s) (beginCommand u) := ⟨rfl, rfl, rfl, rfl, rfl, rfl, rfl, hafter⟩
  have hsame := hbegin.commandBody i (inputBytes s) (expectedChecksum s)
  have hs := commandBody_outcome i (inputBytes s) (expectedChecksum s) (beginCommand s) rfl
  have hu := commandBody_outcome i (inputBytes s) (expectedChecksum s) (beginCommand u) rfl
  have hcrc (hi : IsValidator i) := hs.crc_eq_of_valid hu hi hsame.result
  refine ⟨_, _, exec_eq_next i s, by rw [exec_eq_next, hin, hexp], hsame.result, hsame.erroff, hsame.errbyte,
    hsame.olen, hsame.kind, hsame.matched, fun j => by rw [hsame.obuf], hsame.draws, fun hi => ?_, fun hi h0 => ?_,
    fun hi h0 => hcrc (.inl hi) h0⟩
  · rw [commandBody_crc_of_checksum hi, commandBody_crc_of_checksum hi]
  · have hheld := hs.heldAddress_of_construct hi h0
    exact ⟨(hu.heldAddress_of_construct hi (hsame.result.trans h0)).trans hheld.symm, hcrc (.inr hi) h0⟩

/-! ## What changes the held address and CRC (R29, R32, R39) -/

/-- Settles O44, by the cases of a step: of the commands only a CONSTRUCT that ends with RESULT 0 writes ADDR and
AVALID, and its word is 0x0006. -/
theorem heldAddressChangesOnlyByConstruct : Obligations.HeldAddressChangesOnlyByConstruct := by
  unfold Obligations.HeldAddressChangesOnlyByConstruct
  intro s u h hreset hconstruct
  cases step_effect h with
  | idle | registerWrite | bufferWrite | read | illegal => exact ⟨rfl, fun _ => rfl⟩
  | reset rest hp => simp [hp] at hreset
  | command w rest i _ hp hd hu =>
    rcases (exec_outcome hu).address with ⟨ha, hv, _⟩ | ⟨rfl, h0, _⟩
    · exact ⟨hv, fun j => by rw [ha]; rfl⟩
    · have hw : w = 0x0006 := (encode_of_decode hd).symm
      exact absurd h0 (hconstruct (by rw [hp, hw]; rfl))

/-- Settles O45, by the cases of a step: a command that writes CRC is CRC16, CRCCHK, or a validation that reached
step 7, each with its word. -/
theorem crcChangesOnlyByChecksum : Obligations.CrcChangesOnlyByChecksum := by
  unfold Obligations.CrcChangesOnlyByChecksum
  intro s u h hreset hcrc hchk hval
  cases step_effect h with
  | idle | registerWrite | bufferWrite | read | illegal => rfl
  | reset rest hp => simp [hp] at hreset
  | command w rest i _ hp hd hu =>
    have hhead : s.pending.head? = some (.writeReg 0 (encode i)) := by rw [hp, encode_of_decode hd]; rfl
    rcases (exec_outcome hu).crc rfl with hkept | rfl | rfl | ⟨rfl | rfl, hres⟩
    · exact hkept
    · exact absurd hhead hcrc
    · exact absurd hhead hchk
    · obtain ⟨h0, h5⟩ := hval (.inl hhead)
      exact (hres.elim h0 h5).elim
    · obtain ⟨h0, h5⟩ := hval (.inr hhead)
      exact (hres.elim h0 h5).elim

end Sys2Proof.Machine

/-! SUPPORT. Single transactions of the host: register reads and writes, a write of CMD, reset. -/

namespace Sys2Proof.Machine

open Sys2Proof

/-! ## Register reads (R23, R27, R35, R36, R62) -/

/-- The 16 bits of a register number: its register's, or 0x0000 for a reserved number. -/
def mappedValue (r : BitVec 4) (s : State) : Half :=
  match regOfNumber r with
  | some reg => readReg s reg
  | none => 0x0000

theorem hostReadReg_reply (r : BitVec 4) (s : State) : (hostReadReg r s).reply = .half (mappedValue r s) := by
  unfold hostReadReg mappedValue
  cases regOfNumber r with
  | some reg => rfl
  | none => rfl

theorem mappedValue_takeTransaction (r : BitVec 4) (rest : List HostTx) (s : State) :
    mappedValue r (takeTransaction rest s) = mappedValue r s := by
  unfold mappedValue
  cases regOfNumber r with
  | some reg => cases reg <;> rfl
  | none => rfl

theorem mappedValue_reserved {r : BitVec 4} (hr : 11 ≤ r.toNat) (s : State) : mappedValue r s = 0x0000 := by
  rw [mappedValue, (regOfNumber_eq_none r).2 hr]

/-- STATUS as a number: its three flags (R27). -/
theorem statusView_toNat (s : State) :
    (statusView s).toNat =
      (if s.result = 0 then 1 else 0) + (if s.matched then 2 else 0) + (if s.avalid then 4 else 0) := by
  have hok : s.result = 0 ↔ okFlag s = true := by simp [okFlag]
  rw [statusView, if_congr hok rfl rfl]
  cases okFlag s <;> cases s.matched <;> cases s.avalid <;> rfl

theorem akindView_unheld {s : State} (h : s.avalid = false) : akindView s = (0x00, s.draws) := by
  simp [akindView, h]

/-- AKIND reads byte 2 of the held address, and draws nothing (R35). -/
theorem akindView_held {s : State} {bs : List Byte} (h : heldAddress s = some bs) :
    akindView s = (bs.getD 2 0x00, s.draws) := by
  unfold heldAddress at h
  split at h
  next hav =>
    obtain ⟨hlen, hread⟩ := (Memory.readRun_eq_some _ _ _ _).1 h
    rw [Config.addrSize] at hlen hread
    have h2 : s.addr.read 2 = some (bs.getD 2 0x00) := by
      rw [← Nat.zero_add 2, hread 2 (by omega)]
      simp [List.getD, hlen]
    rw [akindView, if_pos hav, fetchByte_written _ h2]
  next => cases h

/-- No read of a register draws a free value while ADDR holds what AVALID says (log entry 9). -/
theorem hostReadReg_draws {s : State} (h : AddressHeld s) (r : BitVec 4) : (hostReadReg r s).draws = s.draws := by
  have hakind : (akindView s).2 = s.draws := by
    cases hav : s.avalid with
    | false => rw [akindView_unheld hav]
    | true =>
      obtain ⟨bs, hbs, _⟩ := h hav
      rw [akindView_held hbs]
  unfold hostReadReg
  cases regOfNumber r with
  | none => rfl
  | some reg =>
    cases reg with
    | akind => exact hakind
    | cmd | ilen | ckexp | status | result | erroff | errbyte | crc | olen | kind => rfl

/-- A read of a register changes nothing of the block (R62). -/
theorem hostReadReg_blockKept (r : BitVec 4) (s : State) : BlockKept s (hostReadReg r s) := by
  obtain ⟨reply, draws, hr⟩ := hostReadReg_eq r s
  rw [hr]
  exact ⟨⟨rfl, rfl, rfl, fun _ => rfl⟩, ⟨rfl, fun _ => rfl⟩, rfl, rfl, rfl, rfl, rfl, rfl, rfl, fun _ => rfl⟩

/-- Settles O46, register number by register number; the two views by their own lemmas. -/
theorem registerReadsFollowMap : Obligations.RegisterReadsFollowMap := by
  unfold Obligations.RegisterReadsFollowMap
  intro s r rest hp hheld
  refine ⟨hostReadReg r (takeTransaction rest s), mappedValue r s, step_transaction s _ rest hp, ?_, ?_,
    hostReadReg_draws (s := takeTransaction rest s) hheld r, hostReadReg_blockKept r (takeTransaction rest s),
    ?cmd, ?ilen, ?ckexp, ?status, ?result, ?erroff, ?errbyte, ?crc, ?olen, ?kind, ?akind, ?reserved⟩
  · rw [hostReadReg_reply, mappedValue_takeTransaction]
  · obtain ⟨reply, draws, hr⟩ := hostReadReg_eq r (takeTransaction rest s)
    rw [hr]; rfl
  case cmd | ckexp | erroff | crc => rintro rfl; rfl
  case ilen | result | errbyte | olen | kind => rintro rfl; exact BitVec.toNat_setWidth_of_le (by decide)
  case status => rintro rfl; exact statusView_toNat s
  case akind =>
    rintro rfl
    have hv : mappedValue 10 s = (akindView s).1.setWidth 16 := rfl
    refine ⟨fun hav => ?_, fun bs hbs => ?_⟩
    · rw [hv, akindView_unheld hav]; rfl
    · rw [hv, akindView_held hbs]; exact BitVec.toNat_setWidth_of_le (by decide)
  case reserved => exact fun hr => mappedValue_reserved hr s

/-! ## Register writes (R24, R62, R63) -/

/-- A write of a register other than CMD writes none of the results (R62, R63). -/
theorem writeReg_resultsKept (r : BitVec 4) (v : Half) (s : State) : ResultsKept s (writeReg r v s) := by
  obtain ⟨n, ck, hw⟩ := writeReg_eq r v s
  rw [hw]
  exact ⟨⟨rfl, fun _ => rfl⟩, rfl, rfl, rfl, rfl, rfl, rfl, rfl, fun _ => rfl⟩

/-- Settles O47, by the three cases of a register write. -/
theorem registerWritesFollowMap : Obligations.RegisterWritesFollowMap := by
  unfold Obligations.RegisterWritesFollowMap
  intro s r v rest hp hr
  have hstep : step s = .next (writeReg r v (takeTransaction rest s)) := by
    rw [step_transaction s _ rest hp, runTransaction, hostWriteReg_other r v _ hr]
  have hresults : ResultsKept s (writeReg r v (takeTransaction rest s)) :=
    writeReg_resultsKept r v (takeTransaction rest s)
  refine ⟨_, hstep, ?_⟩
  rcases writeReg_cases r v (takeTransaction rest s) with ⟨rfl, hw⟩ | ⟨rfl, hw⟩ | ⟨h1, h2, hw⟩ <;>
    rw [hw] at hresults ⊢
  · exact ⟨rfl, rfl, rfl, rfl, BitVec.toNat_setWidth .., rfl, fun _ => rfl, hresults⟩
  · exact ⟨rfl, rfl, rfl, rfl, rfl, rfl, fun _ => rfl, hresults⟩
  · exact ⟨rfl, rfl, rfl, rfl, by rw [if_neg h1]; rfl, by rw [if_neg h2]; rfl, fun _ => rfl, hresults⟩

/-- Settles O5: register number 0 is CMD, and a word that decodes starts its command. -/
theorem stepRunsDecodedCommand : Obligations.StepRunsDecodedCommand := by
  unfold Obligations.StepRunsDecodedCommand
  intro s w rest i hp hd
  rw [step_transaction s _ rest hp, runTransaction, hostWriteReg_cmd, startCommand, hd]
  rfl

/-! ## Reset (R43, R240) -/

/-- Settles O53, by the values of the reset state. -/
theorem resetStateValues : Obligations.ResetStateValues := by
  unfold Obligations.ResetStateValues
  exact ⟨rfl, rfl, rfl, rfl, rfl, rfl, rfl, rfl, rfl, rfl, rfl, fun _ => ⟨rfl, rfl, rfl⟩⟩

/-- Settles O52: a reset puts the block in the reset state, whatever it held. -/
theorem resetClearsBlock : Obligations.ResetClearsBlock := by
  unfold Obligations.ResetClearsBlock
  intro s rest hp
  obtain ⟨hcmd, hilen, hckexp, hresult, hstatus, herroff, herrbyte, hcrc, holen, hkind, hakind, hbuffers⟩ :=
    resetStateValues
  exact ⟨resetBlock (takeTransaction rest s), step_transaction s _ rest hp, hcmd, hilen, hckexp, hresult, hstatus,
    herroff, herrbyte, hcrc, holen, hkind, rfl, rfl, hakind, hbuffers, rfl, rfl, rfl⟩

end Sys2Proof.Machine

/-! SUPPORT. Single transactions of the host: accesses to the buffers. -/

namespace Sys2Proof.Machine

open Sys2Proof

/-! ## A returned byte (R65, R66, R67, R76) -/

/-- A read of a buffer changes nothing of the block, whatever byte it returns. -/
theorem returnByte_blockKept (x : Byte × Nat) (s : State) : BlockKept s (returnByte x s) :=
  ⟨⟨rfl, rfl, rfl, fun _ => rfl⟩, ⟨rfl, fun _ => rfl⟩, rfl, rfl, rfl, rfl, rfl, rfl, rfl, fun _ => rfl⟩

theorem hostReadIbuf_written {i : BitVec 8} {s : State} {b : Byte} (hb : s.ibuf.read i.toNat = some b) :
    hostReadIbuf i s = returnByte (b, s.draws) s := by
  rw [hostReadIbuf, fetchByte_written _ hb]

theorem hostReadIbuf_unwritten {i : BitVec 8} {s : State} (hb : s.ibuf.read i.toNat = none) :
    hostReadIbuf i s = returnByte (drawFree s.draws) s := by
  rw [hostReadIbuf, fetchByte_unwritten _ hb, drawFree]

theorem hostReadObuf_emitted {i : BitVec 9} {s : State} {b : Byte} (hi : i.toNat < s.olen.toNat)
    (hb : s.obuf.read i.toNat = some b) : hostReadObuf i s = returnByte (b, s.draws) s := by
  rw [hostReadObuf, if_pos (BitVec.lt_def.2 hi), fetchByte_written _ hb]

theorem hostReadObuf_beyond {i : BitVec 9} {s : State} (hi : s.olen.toNat ≤ i.toNat) :
    hostReadObuf i s = returnByte (drawFree s.draws) s := by
  rw [hostReadObuf, if_neg (BitVec.not_lt.2 (BitVec.le_def.2 hi))]

theorem hostReadAddr_held {i : BitVec 6} {s : State} {b : Byte} (hav : s.avalid = true) (hi : i.toNat < 48)
    (hb : s.addr.read i.toNat = some b) : hostReadAddr i s = returnByte (b, s.draws) s := by
  rw [hostReadAddr, if_pos ⟨hi, hav⟩, fetchByte_written _ hb]

theorem hostReadAddr_free {i : BitVec 6} {s : State} (h : s.avalid = false ∨ 48 ≤ i.toNat) :
    hostReadAddr i s = returnByte (drawFree s.draws) s := by
  have hfree : ¬(i.toNat < Config.addrSize ∧ s.avalid = true) := by
    rintro ⟨hlt, hav⟩
    rcases h with hoff | hge
    · rw [hoff] at hav; cases hav
    · exact absurd hlt (Nat.not_lt.2 hge)
  rw [hostReadAddr, if_neg hfree]

/-- The held address is 48 specified bytes, which ADDR holds index by index (R39). -/
theorem addr_read_of_heldAddress {s : State} {bs : List Byte} (h : heldAddress s = some bs) {j : Nat} (hj : j < 48) :
    ∃ b, bs[j]? = some b ∧ s.addr.read j = some b := by
  unfold heldAddress at h
  split at h
  next =>
    obtain ⟨hlen, hread⟩ := (Memory.readRun_eq_some _ _ _ _).1 h
    have hin : j < bs.length := by rw [hlen]; exact hj
    have hbyte : bs[j]? = some bs[j] := List.getElem?_eq_getElem hin
    refine ⟨bs[j], hbyte, ?_⟩
    rw [← hbyte, ← hread j hj, Nat.zero_add]
  next => cases h

/-! ## A write of IBUF (R64) -/

/-- Settles O48: a write reads back at its own index and at no other. -/
theorem ibufWriteChangesOneByte : Obligations.IbufWriteChangesOneByte := by
  unfold Obligations.IbufWriteChangesOneByte
  intro s i b rest hp
  have hresults : ResultsKept s (hostWriteIbuf i b (takeTransaction rest s)) :=
    ⟨⟨rfl, fun _ => rfl⟩, rfl, rfl, rfl, rfl, rfl, rfl, rfl, fun _ => rfl⟩
  exact ⟨_, step_transaction s _ rest hp, rfl, rfl, rfl, Memory.read_write_same _ _ _,
    fun _ hj => Memory.read_write_other _ _ hj, rfl, rfl, rfl, hresults⟩

/-! ## Reads of the buffers (R61, R65, R66, R67) -/

/-- Settles O49: the byte is written or it is not. -/
theorem ibufReadReturnsWritten : Obligations.IbufReadReturnsWritten := by
  unfold Obligations.IbufReadReturnsWritten
  intro s i rest hp
  refine ⟨hostReadIbuf i (takeTransaction rest s), step_transaction s _ rest hp, rfl,
    returnByte_blockKept _ (takeTransaction rest s), fun b hb => ?written, fun hb => ?unwritten⟩
  case written =>
    rw [hostReadIbuf_written (s := takeTransaction rest s) hb]
    exact ⟨rfl, rfl⟩
  case unwritten =>
    rw [hostReadIbuf_unwritten (s := takeTransaction rest s) hb]
    exact ⟨rfl, rfl⟩

/-- Settles O50: below OLEN the invariant gives the byte, elsewhere the model draws a free value. -/
theorem obufReadReturnsEmitted : Obligations.ObufReadReturnsEmitted := by
  unfold Obligations.ObufReadReturnsEmitted
  intro s i rest hp hspec
  refine ⟨hostReadObuf i (takeTransaction rest s), step_transaction s _ rest hp, rfl,
    returnByte_blockKept _ (takeTransaction rest s), fun hi => ?emitted, fun hi => ?beyond⟩
  case emitted =>
    obtain ⟨b, hb⟩ := Option.isSome_iff_exists.1 ((hspec i.toNat).2 hi)
    refine ⟨b, hb, ?_⟩
    rw [hostReadObuf_emitted (s := takeTransaction rest s) hi hb]
    exact ⟨rfl, rfl⟩
  case beyond =>
    rw [hostReadObuf_beyond (s := takeTransaction rest s) hi]
    exact ⟨rfl, rfl⟩

/-- Settles O51: while AVALID is 1 the invariant gives the address whose byte ADDR holds, elsewhere the model draws a
free value. -/
theorem addrReadReturnsHeld : Obligations.AddrReadReturnsHeld := by
  unfold Obligations.AddrReadReturnsHeld
  intro s i rest hp hheld
  refine ⟨hostReadAddr i (takeTransaction rest s), step_transaction s _ rest hp, rfl,
    returnByte_blockKept _ (takeTransaction rest s), fun hav hi => ?held, fun hfree => ?free⟩
  case held =>
    obtain ⟨bs, hbs, _⟩ := hheld hav
    obtain ⟨b, hbyte, hread⟩ := addr_read_of_heldAddress hbs hi
    refine ⟨bs, b, hbs, hbyte, ?_⟩
    rw [hostReadAddr_held (s := takeTransaction rest s) hav hi hread]
    exact ⟨rfl, rfl⟩
  case free =>
    rw [hostReadAddr_free (s := takeTransaction rest s) hfree]
    exact ⟨rfl, rfl⟩

end Sys2Proof.Machine

/-! SUPPORT. The words that are commands, and what a word that is none does. -/

namespace Sys2Proof.Machine

open Sys2Proof

/-! ## The fields of a word (R90) -/

theorem commandFields_rsv_toNat (w : Half) : (commandFields w).rsv.toNat = w.toNat / 32 := by
  have := w.isLt
  simp only [commandFields, BitVec.extractLsb'_toNat, Nat.shiftRight_eq_div_pow]
  omega

theorem commandFields_cs_toNat (w : Half) : (commandFields w).cs.toNat = w.toNat / 16 % 2 := by
  simp only [commandFields, BitVec.extractLsb'_toNat, Nat.shiftRight_eq_div_pow]

theorem commandFields_op_toNat (w : Half) : (commandFields w).op.toNat = w.toNat % 16 := by
  simp [commandFields]

/-- The fields that pass the checks, as numbers (R90, R94). -/
theorem CommandFields.wellFormed_iff (f : CommandFields) :
    f.wellFormed = true ↔ f.rsv.toNat = 0 ∧ (1 ≤ f.op.toNat ∧ f.op.toNat ≤ 6) ∧
      (f.cs.toNat = 0 ∨ f.op.toNat = 3 ∨ f.op.toNat = 4) := by
  simp [CommandFields.wellFormed, CommandFields.reservedClear, CommandFields.operationDefined,
    CommandFields.codecSelectAllowed, BitVec.toNat_eq, and_assoc, or_assoc]

/-! ## The words that decode (R92, R94) -/

theorem decodeStdOp_isOk (op : BitVec 4) :
    (decodeStdOp op.toNat).isOk = CommandFields.wellFormed { rsv := 0, cs := 0, op := op } := by
  revert op; decide

theorem decodeNdauOp_isOk (op : BitVec 4) :
    (decodeNdauOp op.toNat).isOk = CommandFields.wellFormed { rsv := 0, cs := 1, op := op } := by
  revert op; decide

/-- A word decodes exactly if its fields pass the checks (R90, R94). -/
theorem decode_isOk (w : Half) : (decode w).isOk = (commandFields w).wellFormed := by
  rw [decode]
  generalize commandFields w = f
  obtain ⟨rsv, cs, op⟩ := f
  dsimp only
  split
  next hrsv =>
    have hreserved : (rsv == 0) = false := beq_false_of_ne hrsv
    rw [CommandFields.wellFormed, CommandFields.reservedClear, hreserved]
    rfl
  next hrsv =>
    obtain rfl : rsv = 0 := not_not.1 hrsv
    split
    next hcs => rw [hcs, decodeStdOp_isOk]
    next hcs =>
      obtain rfl : cs = 1 := by bv_omega
      exact decodeNdauOp_isOk op

theorem exists_decode_iff_wellFormed (w : Half) :
    (∃ i, decode w = .ok i) ↔ (commandFields w).wellFormed = true := by
  rw [← decode_isOk]
  cases decode w with
  | ok i => simp [Except.isOk, Except.toBool]
  | error e => simp [Except.isOk, Except.toBool]

theorem encode_eq_iff_decode (i : Instr) (w : Half) : encode i = w ↔ decode w = .ok i :=
  ⟨fun h => h ▸ decode_encode i, encode_of_decode⟩

/-- The table of R92 lists each command with its word and nothing else. -/
theorem mem_commandTable_iff (w : Half) (i : Instr) :
    (w, i) ∈ ([(0x0001, .crc16), (0x0002, .crcchk), (0x0003, .decStd), (0x0013, .decNdau), (0x0004, .encStd),
      (0x0014, .encNdau), (0x0005, .validate), (0x0006, .construct)] : List (Half × Instr)) ↔ encode i = w := by
  constructor
  · simp only [List.mem_cons, Prod.mk.injEq, List.not_mem_nil, or_false]
    rintro (⟨rfl, rfl⟩ | ⟨rfl, rfl⟩ | ⟨rfl, rfl⟩ | ⟨rfl, rfl⟩ | ⟨rfl, rfl⟩ | ⟨rfl, rfl⟩ | ⟨rfl, rfl⟩ | ⟨rfl, rfl⟩)
    all_goals rfl
  · rintro rfl
    cases i <;> decide

/-- Settles O3: a word that decodes is the word of its command, and the table lists those; which words decode is said
by their fields. -/
theorem legalWordsAreTheEight : Obligations.LegalWordsAreTheEight := by
  unfold Obligations.LegalWordsAreTheEight
  intro w
  exact ⟨fun i => (encode_eq_iff_decode i w).symm.trans (mem_commandTable_iff w i).symm,
    fun i => encode_eq_iff_decode i w, exists_decode_iff_wellFormed w⟩

/-- Settles O1: each word of the table is the encoding of its command. -/
theorem commandWordsDecode : Obligations.CommandWordsDecode := by
  unfold Obligations.CommandWordsDecode
  exact ⟨decode_encode .crc16, decode_encode .crcchk, decode_encode .decStd, decode_encode .decNdau,
    decode_encode .encStd, decode_encode .encNdau, decode_encode .validate, decode_encode .construct⟩

/-- Settles O2: the word of a command decodes to it, so it carries its fields, and they pass the checks. -/
theorem commandDecodeOfEncode : Obligations.CommandDecodeOfEncode := by
  unfold Obligations.CommandDecodeOfEncode
  intro i
  have hdec : decode (encode i) = .ok i := decode_encode i
  have hfields : commandFields (encode i) = i.fields := commandFields_of_decode hdec
  have hwf : i.fields.wellFormed = true := by
    rw [← hfields, ← exists_decode_iff_wellFormed]
    exact ⟨i, hdec⟩
  exact ⟨hwf, hfields, hdec⟩

/-! ## A write of an illegal word (R93, R94, R211) -/

theorem decode_error_of_illegal {w : Half}
    (h : w.toNat / 32 ≠ 0 ∨ w.toNat % 16 = 0 ∨ 7 ≤ w.toNat % 16 ∨
      (w.toNat / 16 % 2 = 1 ∧ w.toNat % 16 ∈ [1, 2, 5, 6])) : ∃ e, decode w = .error e := by
  cases hd : decode w with
  | error e => exact ⟨e, rfl⟩
  | ok i =>
    obtain ⟨hrsv, hop, hcs⟩ := (CommandFields.wellFormed_iff _).1 ((exists_decode_iff_wellFormed w).1 ⟨i, hd⟩)
    rw [commandFields_rsv_toNat] at hrsv
    rw [commandFields_op_toNat] at hop hcs
    rw [commandFields_cs_toNat] at hcs
    simp only [List.mem_cons, List.not_mem_nil, or_false] at h
    omega

/-- What an illegal word leaves: E_ILLEGAL in a result group otherwise neutral, and no output (R93, R211). -/
theorem runIllegal_results (s : State) :
    FailedWith (runIllegal s) .illegalCommand ∧ (runIllegal s).kind = 0x00 ∧ (runIllegal s).matched = false ∧
      OutputIs (runIllegal s) [] ∧ okFlag (runIllegal s) = false :=
  ⟨⟨rfl, rfl, rfl⟩, rfl, rfl, ⟨rfl, by simp⟩, rfl⟩

/-- Settles O4: the word does not decode, so the step is the prologue and E_ILLEGAL, which touch the result group and
OBUF only. -/
theorem illegalWordRecorded : Obligations.IllegalWordRecorded := by
  unfold Obligations.IllegalWordRecorded
  intro s w rest hp hw
  obtain ⟨e, he⟩ := decode_error_of_illegal hw
  have hstep : step s = .next (runIllegal (latchCommand w (takeTransaction rest s))) := by
    rw [step_transaction s _ rest hp, runTransaction, hostWriteReg_cmd, startCommand, he]
  obtain ⟨hfail, hkind, hmatched, hout, hok⟩ := runIllegal_results (latchCommand w (takeTransaction rest s))
  exact ⟨_, hstep, hfail, rfl, hkind, hmatched, hout, hok, rfl, rfl, rfl, rfl, fun _ => rfl, ⟨rfl, fun _ => rfl⟩,
    rfl, rfl, rfl⟩

end Sys2Proof.Machine

/-! SUPPORT. The alphabets, the layout of a quantum, and the symbols of an encoding. -/

namespace Sys2Proof.Machine

open Sys2Proof

/-! ## Alphabets (R96, R97, R98, R122) -/

theorem alphabet_wellFormed (c : Codec) : alphabetWellFormed pad (alphabet c) = true := by
  cases c with
  | std => decide
  | ndau => decide

theorem lut_pad (c : Codec) : lut c pad = none := by
  cases c with
  | std => rfl
  | ndau => rfl

@[simp] theorem lower_pad : lower pad = pad := rfl

/-- Settles O30, part by part. -/
theorem alphabetsWellFormed : Obligations.AlphabetsWellFormed := by
  unfold Obligations.AlphabetsWellFormed
  exact fun c => ⟨alphabet_wellFormed c, lut_pad c, lower_pad⟩

theorem alphabetWellFormed_iff (p : Byte) (symbols : List Byte) :
    alphabetWellFormed p symbols = true ↔ symbols.length = 32 ∧ symbols.Nodup ∧ p ∉ symbols := by
  simp [alphabetWellFormed, alphabetLengthOk, alphabetDistinct, alphabetPadFree, and_assoc]

/-- A value's symbol is of the alphabet: every 5-bit value has one. -/
theorem sym_mem_alphabet (c : Codec) (v : Group5) : sym c v ∈ alphabet c := by
  obtain ⟨hlen, _, _⟩ := (alphabetWellFormed_iff _ _).1 (alphabet_wellFormed c)
  have hv : v.toNat < (alphabet c).length := by rw [hlen]; exact v.isLt
  rw [sym, List.getD_eq_getElem _ _ hv]
  exact List.getElem_mem hv

theorem sym_ne_pad (c : Codec) (v : Group5) : sym c v ≠ pad := by
  obtain ⟨_, _, hpad⟩ := (alphabetWellFormed_iff _ _).1 (alphabet_wellFormed c)
  exact fun h => hpad (h ▸ sym_mem_alphabet c v)

/-! ## The layout of a quantum (R101) -/

/-- Concatenation of bit vectors as numbers. -/
theorem toNat_append_eq_add {m n : Nat} (x : BitVec m) (y : BitVec n) :
    (x ++ y).toNat = x.toNat * 2 ^ n + y.toNat := by
  rw [BitVec.toNat_append, ← Nat.shiftLeft_add_eq_or_of_lt y.isLt, Nat.shiftLeft_eq]

theorem quantumOfBytes_toNat (bs : List Byte) :
    (quantumOfBytes bs).toNat = (bs.getD 0 0).toNat * 2 ^ 32 + (bs.getD 1 0).toNat * 2 ^ 24 +
      (bs.getD 2 0).toNat * 2 ^ 16 + (bs.getD 3 0).toNat * 2 ^ 8 + (bs.getD 4 0).toNat := by
  simp only [quantumOfBytes, toNat_append_eq_add]
  ring

theorem groupOf_toNat (q : Quantum) (p : Nat) : (groupOf q p).toNat = q.toNat / 2 ^ (35 - 5 * p) % 32 := by
  rw [groupOf, BitVec.extractLsb'_toNat, Nat.shiftRight_eq_div_pow]

theorem byteOf_toNat (q : Quantum) (m : Nat) : (byteOf q m).toNat = q.toNat / 2 ^ (32 - 8 * m) % 256 := by
  rw [byteOf, BitVec.extractLsb'_toNat, Nat.shiftRight_eq_div_pow]

/-- The eight groups of a quantum. -/
def groupsOf (q : Quantum) : List Group5 := [0, 1, 2, 3, 4, 5, 6, 7].map (groupOf q)

@[simp] theorem groupsOf_length (q : Quantum) : (groupsOf q).length = 8 := rfl

/-- The groups of a quantum written out from its bytes (R101). -/
theorem groupsOf_quantumOfBytes_toNat (bs : List Byte) :
    (groupsOf (quantumOfBytes bs)).map BitVec.toNat =
      (let b := fun m => (bs.getD m 0).toNat
       [b 0 / 8,
        b 0 % 8 * 4 + b 1 / 64,
        b 1 / 2 % 32,
        b 1 % 2 * 16 + b 2 / 16,
        b 2 % 16 * 2 + b 3 / 128,
        b 3 / 4 % 32,
        b 3 % 4 * 8 + b 4 / 32,
        b 4 % 32]) := by
  have h0 := (bs.getD 0 0).isLt
  have h1 := (bs.getD 1 0).isLt
  have h2 := (bs.getD 2 0).isLt
  have h3 := (bs.getD 3 0).isLt
  have h4 := (bs.getD 4 0).isLt
  simp only [groupsOf, List.map_cons, List.map_nil, groupOf_toNat, quantumOfBytes_toNat, List.cons.injEq, and_true]
  refine ⟨?_, ?_, ?_, ?_, ?_, ?_, ?_, ?_⟩ <;> omega

/-! ## The symbols of an encoding (R102, R125) -/

/-- The groups of up to five bytes: as many as have a bit of them (R102). -/
def realGroups (bs : List Byte) : List Group5 := (groupsOf (quantumOfBytes bs)).take (realSymbols bs.length)

theorem realGroups_length {bs : List Byte} (h : bs.length ≤ 5) : (realGroups bs).length = realSymbols bs.length := by
  rw [realGroups, List.length_take, groupsOf_length, realSymbols]
  omega

/-- The real symbols of a quantum come first, the pads after them (R102). -/
theorem encodeQuantum_eq (c : Codec) {bs : List Byte} (h : bs.length ≤ 5) :
    encodeQuantum c bs = (realGroups bs).map (sym c) ++ List.replicate (8 - realSymbols bs.length) pad := by
  have hreal : realSymbols bs.length ≤ 8 := by rw [realSymbols]; omega
  rw [encodeQuantum, realGroups]
  generalize realSymbols bs.length = real at hreal
  interval_cases real <;> rfl

/-- One quantum or less is encoded as one quantum. -/
theorem encodeBytes_of_length_le (c : Codec) {bs : List Byte} (hpos : 0 < bs.length) (hle : bs.length ≤ 5) :
    encodeBytes c bs = encodeQuantum c bs := by
  match bs, hpos, hle with
  | [_], _, _ | [_, _], _, _ | [_, _, _], _, _ | [_, _, _, _], _, _ => rfl
  | [_, _, _, _, _], _, _ => exact List.append_nil _

theorem encodeBytes_of_one_quantum (c : Codec) {bs : List Byte} (hpos : 0 < bs.length) (hle : bs.length ≤ 5) :
    encodeBytes c bs =
      (realGroups bs).map (sym c) ++ List.replicate (encodedLen bs.length - realSymbols bs.length) pad := by
  have hlen : encodedLen bs.length = 8 := by rw [encodedLen]; omega
  rw [encodeBytes_of_length_le c hpos hle, encodeQuantum_eq c hle, hlen]

/-- Settles O17: the real groups by the layout of the quantum, for each of the five lengths. -/
theorem encodeSymbolsByFormula : Obligations.EncodeSymbolsByFormula := by
  unfold Obligations.EncodeSymbolsByFormula
  intro c bs hlen
  simp only [List.mem_cons, List.not_mem_nil, or_false] at hlen
  have hle : bs.length ≤ 5 := by omega
  refine ⟨realGroups bs, ?_, ?_⟩
  · rw [encodeBytes_of_length_le c (by omega) hle, encodeQuantum_eq c hle, realGroups_length hle]
  · rw [realGroups, List.map_take, groupsOf_quantumOfBytes_toNat]
    rcases hlen with h | h | h | h | h <;> rw [h] <;> rfl

/-- Every encoding is the symbols of its real groups and then the pads that fill the last quantum (R102, R126). -/
theorem encodeBytes_eq_symbols_append_pads (c : Codec) (bs : List Byte) :
    ∃ gs : List Group5, gs.length = realSymbols bs.length ∧
      encodeBytes c bs = gs.map (sym c) ++ List.replicate (encodedLen bs.length - realSymbols bs.length) pad := by
  match bs with
  | [] => exact ⟨[], rfl, rfl⟩
  | [_] | [_, _] | [_, _, _] | [_, _, _, _] =>
    exact ⟨realGroups _, realGroups_length (Nat.le_of_ble_eq_true rfl),
      encodeBytes_of_one_quantum c (Nat.le_of_ble_eq_true rfl) (Nat.le_of_ble_eq_true rfl)⟩
  | b0 :: b1 :: b2 :: b3 :: b4 :: rest =>
    obtain ⟨gs, hlen, henc⟩ := encodeBytes_eq_symbols_append_pads c rest
    have hfull : encodeQuantum c [b0, b1, b2, b3, b4] = (realGroups [b0, b1, b2, b3, b4]).map (sym c) := by
      simpa [realSymbols] using encodeQuantum_eq c (bs := [b0, b1, b2, b3, b4]) (by simp)
    have hpads : encodedLen (rest.length + 5) - realSymbols (rest.length + 5) =
        encodedLen rest.length - realSymbols rest.length := by
      simp only [encodedLen, realSymbols]; omega
    refine ⟨realGroups [b0, b1, b2, b3, b4] ++ gs, ?_, ?_⟩
    · rw [List.length_append, hlen, realGroups_length (by simp)]
      simp only [realSymbols, List.length_cons, List.length_nil]
      omega
    · rw [encodeBytes, henc, hfull, ← List.append_assoc, ← List.map_append, ← hpads]
      rfl

/-- Where the real symbols of an encoding end, quantum by quantum (R102). -/
theorem realSymbols_eq (n : Nat) : realSymbols n = 8 * (n / 5) + realSymbols (n % 5) := by
  simp only [realSymbols]; omega

/-- A symbol of an encoding is a pad behind the real symbols and of the alphabet before (R126 (c), (d)). -/
theorem encodeBytes_getElem_cases (c : Codec) {bs : List Byte} {i : Nat} {b : Byte}
    (hb : (encodeBytes c bs)[i]? = some b) :
    (i < realSymbols bs.length ∧ ∃ v, b = sym c v) ∨
      (realSymbols bs.length ≤ i ∧ i < encodedLen bs.length ∧ b = pad) := by
  have hi : i < encodedLen bs.length := by
    rw [← encodeBytes_length c]
    exact (List.getElem?_eq_some_iff.1 hb).1
  obtain ⟨gs, hlen, henc⟩ := encodeBytes_eq_symbols_append_pads c bs
  rw [henc] at hb
  rcases Nat.lt_or_ge i (realSymbols bs.length) with hlt | hge
  · rw [List.getElem?_append_left (by simpa [hlen] using hlt), List.getElem?_map, Option.map_eq_some_iff] at hb
    obtain ⟨v, _, hv⟩ := hb
    exact .inl ⟨hlt, v, hv.symm⟩
  · rw [List.getElem?_append_right (by simpa [hlen] using hge)] at hb
    exact .inr ⟨hge, hi, List.eq_of_mem_replicate (List.mem_of_getElem? hb)⟩

/-- The pads of an encoding are what stands behind the real symbols of a short last quantum (R102, R126 (c)): when the
last quantum is full, nothing stands behind them. -/
theorem encodeBytes_getElem_eq_pad_iff (c : Codec) {bs : List Byte} {i : Nat} {b : Byte}
    (hb : (encodeBytes c bs)[i]? = some b) :
    b = pad ↔ bs.length % 5 ≠ 0 ∧ 8 * (bs.length / 5) + realSymbols (bs.length % 5) ≤ i := by
  rw [← realSymbols_eq]
  rcases encodeBytes_getElem_cases c hb with ⟨hlt, v, rfl⟩ | ⟨hge, hlt, rfl⟩
  · exact iff_of_false (sym_ne_pad c v) (fun h => absurd hlt (Nat.not_lt.2 h.2))
  · refine iff_of_true rfl ⟨fun hfull => ?_, hge⟩
    simp only [encodedLen, realSymbols] at hge hlt
    omega

/-- Settles O18: where the pads stand, with the real symbols of each short quantum counted out; the others are symbols
of values. -/
theorem encodePadsShortGroup : Obligations.EncodePadsShortGroup := by
  unfold Obligations.EncodePadsShortGroup
  intro c bs i b hb
  constructor
  · refine (encodeBytes_getElem_eq_pad_iff c hb).trans (and_congr_right fun hshort => ?_)
    have hlt : bs.length % 5 < 5 := Nat.mod_lt _ (by decide)
    match bs.length % 5, hshort, hlt with
    | 1, _, _ | 2, _, _ | 3, _, _ | 4, _, _ => exact Iff.rfl
  · intro hne
    rcases encodeBytes_getElem_cases c hb with ⟨_, v, rfl⟩ | ⟨_, _, hpad⟩
    · exact sym_mem_alphabet c v
    · exact absurd hpad hne

end Sys2Proof.Machine

/-! SUPPORT. The decoder on symbols of values: what it looks up, and the bytes of one quantum. -/

namespace Sys2Proof.Machine

open Sys2Proof

/-! ## Symbols are looked up (R121, R129) -/

theorem lut_sym (c : Codec) (v : Group5) : lut c (sym c v) = some v := by
  cases c with
  | std => revert v; decide
  | ndau => revert v; decide

/-- Folding leaves the symbols of the codec (R99, R129). -/
theorem foldInput_of_symbols (c : Codec) (gs : List Group5) (k : Nat) :
    foldInput c (gs.map (sym c) ++ List.replicate k pad) = gs.map (sym c) ++ List.replicate k pad := by
  cases c with
  | std => rfl
  | ndau =>
    have hsym : ∀ v : Group5, lower (sym .ndau v) = sym .ndau v := by decide
    simp [foldInput, folds, lowerAll, Function.comp_def, hsym]

/-- A symbol of a value never terminates a quantum: it is no pad (R131). -/
theorem terminates_sym (c : Codec) (v : Group5) (j remaining : Nat) : terminates (sym c v) j remaining = false := by
  simp [terminates, sym_ne_pad]

/-- Symbols of a quantum that they do not complete join its groups (R129). -/
theorem scan_symbols (c : Codec) (n i : Nat) (gs hs : List Group5) (rest : List Byte)
    (h : gs.length + hs.length ≤ 7) :
    scan c n i gs (hs.map (sym c) ++ rest) = scan c n (i + hs.length) (gs ++ hs) rest := by
  induction hs generalizing i gs with
  | nil => simp
  | cons v hs ih =>
    simp only [List.length_cons] at h
    have hopen : gs.length ≠ 7 := by omega
    have hstep : scan c n i gs (sym c v :: (hs.map (sym c) ++ rest)) =
        scan c n (i + 1) (gs ++ [v]) (hs.map (sym c) ++ rest) := by
      rw [scan, terminates_sym, lut_sym]
      simp [hopen]
    rw [List.map_cons, List.cons_append, hstep, ih _ _ (by simp; omega), List.length_cons, List.append_assoc,
      List.singleton_append, Nat.add_right_comm, Nat.add_assoc]

/-- The eighth symbol completes a quantum, whose bytes come before those of the rest (R129). -/
theorem scan_full_quantum (c : Codec) (n i : Nat) (gs : List Group5) (rest : List Byte) (h : gs.length = 8) :
    scan c n i [] (gs.map (sym c) ++ rest) = (scan c n (i + 8) [] rest).map (quantumBytes gs 8 ++ ·) := by
  obtain ⟨hs, v, rfl⟩ : ∃ hs v, gs = hs ++ [v] :=
    ⟨gs.dropLast, gs.getLast (List.ne_nil_of_length_eq_add_one h), (List.dropLast_append_getLast _).symm⟩
  have hlen : hs.length = 7 := by simpa using h
  rw [List.map_append, List.append_assoc, scan_symbols c n i [] hs _ (by simp [hlen]), List.map_singleton,
    List.singleton_append, scan, terminates_sym, lut_sym]
  simp only [List.nil_append, hlen, Nat.add_assoc]
  cases scan c n (i + 8) [] rest with
  | error off => rfl
  | ok out => rfl

/-- A padding run that is complete and ends the input has no fault (R129). -/
theorem paddingFault_replicate (n i k : Nat) : paddingFault n i k (List.replicate k pad) = none := by
  induction k with
  | zero => rfl
  | succ k ih => simpa [List.replicate_succ, paddingFault] using ih

/-- The first pad behind two symbols or more closes the quantum (R131). -/
theorem scan_pads (c : Codec) (n i : Nat) (gs : List Group5) (h2 : 2 ≤ gs.length) (h7 : gs.length ≤ 7)
    (h3 : gs.length ≠ 3) (h6 : gs.length ≠ 6) :
    scan c n i gs (List.replicate (8 - gs.length) pad) = .ok (quantumBytes gs gs.length) := by
  have hpads : List.replicate (8 - gs.length) pad = pad :: List.replicate (7 - gs.length) pad := by
    rw [← List.replicate_succ]; congr 1; omega
  have hterm : terminates pad gs.length (List.replicate (7 - gs.length) pad).length = true := by
    simp [terminates, h2]; omega
  rw [hpads, scan, if_pos hterm, closePadded, paddingFault_replicate]
  simp [h3, h6]

/-- One quantum of symbols, padded to eight, decodes to the bytes its groups determine (R129, R132). -/
theorem decodeSymbols_quantum (c : Codec) (gs : List Group5) (h : gs.length ∈ [2, 4, 5, 7, 8]) :
    decodeSymbols c (gs.map (sym c) ++ List.replicate (8 - gs.length) pad) = .ok (quantumBytes gs gs.length) := by
  simp only [List.mem_cons, List.not_mem_nil, or_false] at h
  rw [decodeSymbols, foldInput_of_symbols]
  by_cases h8 : gs.length = 8
  · rw [h8, scan_full_quantum c _ _ gs _ h8]
    exact congrArg Except.ok (List.append_nil _)
  · rw [scan_symbols c _ _ [] gs _ (by simp; omega), List.nil_append]
    exact scan_pads c _ _ gs (by omega) (by omega) (by omega) (by omega)

/-! ## The bytes of a quantum (R101) -/

theorem quantumOfGroups_toNat (gs : List Group5) :
    (quantumOfGroups gs).toNat = (gs.getD 0 0).toNat * 2 ^ 35 + (gs.getD 1 0).toNat * 2 ^ 30 +
      (gs.getD 2 0).toNat * 2 ^ 25 + (gs.getD 3 0).toNat * 2 ^ 20 + (gs.getD 4 0).toNat * 2 ^ 15 +
      (gs.getD 5 0).toNat * 2 ^ 10 + (gs.getD 6 0).toNat * 2 ^ 5 + (gs.getD 7 0).toNat := by
  simp only [quantumOfGroups, toNat_append_eq_add]
  ring

/-- The bytes of a quantum written out from its groups (R101). -/
theorem bytesOf_quantumOfGroups_toNat (gs : List Group5) :
    (bytesOf (quantumOfGroups gs)).map BitVec.toNat =
      (let g := fun p => (gs.getD p 0).toNat
       [g 0 * 8 + g 1 / 4,
        (g 1 * 64 + g 2 * 2 + g 3 / 16) % 256,
        (g 3 * 16 + g 4 / 2) % 256,
        (g 4 * 128 + g 5 * 4 + g 6 / 8) % 256,
        (g 6 * 32 + g 7) % 256]) := by
  have h0 := (gs.getD 0 0).isLt
  have h1 := (gs.getD 1 0).isLt
  have h2 := (gs.getD 2 0).isLt
  have h3 := (gs.getD 3 0).isLt
  have h4 := (gs.getD 4 0).isLt
  have h5 := (gs.getD 5 0).isLt
  have h6 := (gs.getD 6 0).isLt
  have h7 := (gs.getD 7 0).isLt
  simp only [bytesOf, List.map_cons, List.map_nil, byteOf_toNat, quantumOfGroups_toNat, List.cons.injEq, and_true]
  refine ⟨?_, ?_, ?_, ?_, ?_⟩ <;> omega

/-- Settles O23: the quantum decodes to the bytes its groups determine, for each of the five lengths. -/
theorem quantumDecodesByFormula : Obligations.QuantumDecodesByFormula := by
  unfold Obligations.QuantumDecodesByFormula
  intro c gs h
  refine ⟨quantumBytes gs gs.length, decodeSymbols_quantum c gs h, ?_⟩
  rw [quantumBytes, List.map_take, bytesOf_quantumOfGroups_toNat]
  simp only [List.mem_cons, List.not_mem_nil, or_false] at h
  rcases h with h | h | h | h | h <;> rw [h] <;> rfl

end Sys2Proof.Machine

/-! SUPPORT. The script statement `ibuf`: a run of single writes of IBUF and a write of ILEN. -/

namespace Sys2Proof.Machine

open Sys2Proof

/-! ## Runs of steps -/

theorem run_succ_of_step {s u : State} (h : step s = .next u) (k : Nat) :
    Host.Core.run core (k + 1) s = Host.Core.run core k u := by
  have hcore : core.step s = .next u := h
  simp only [Host.Core.run, hcore]

/-- The first byte of a run written before the others reads as the run does: their indices differ (R64). -/
theorem Memory.read_writeRun_write (m : Memory) (b : Byte) (bs : List Byte) (i j : Nat) :
    ((m.write i b).writeRun (i + 1) bs).read j = (m.writeRun i (b :: bs)).read j := by
  rw [Memory.writeRun, Memory.read_write, Memory.read_writeRun, Memory.read_writeRun, Memory.read_write]
  by_cases hj : j = i
  · rw [if_pos hj, if_pos hj, if_neg (by omega)]
  · rw [if_neg hj, if_neg hj]

/-- The writes of a byte sequence, issued one by one, place it in IBUF and change nothing else (R64, R105). -/
theorem run_wibLines (bs : List Byte) (i k : Nat) (rest : List HostTx) (s : State)
    (hp : s.pending = (wibLines i bs).map ScriptLine.tx ++ rest) (hi : i + bs.length ≤ Config.ibufSize) :
    ∃ m reply, (∀ j, m.read j = (s.ibuf.writeRun i bs).read j) ∧
      Host.Core.run core (bs.length + k) s =
        Host.Core.run core k { s with ibuf := m, pending := rest, reply := reply } := by
  induction bs generalizing i s with
  | nil =>
    refine ⟨s.ibuf, s.reply, fun _ => rfl, ?_⟩
    rw [← show s.pending = rest from hp, List.length_nil, Nat.zero_add]
  | cons b bs ih =>
    simp only [List.length_cons, Config.ibufSize] at hi
    have hindex : (BitVec.ofNat 8 i).toNat = i := by
      rw [BitVec.toNat_ofNat, Nat.mod_eq_of_lt (by omega)]
    have hstep := step_transaction s _ _ hp
    obtain ⟨m, reply, hread, hrun⟩ := ih (i + 1)
      (hostWriteIbuf (BitVec.ofNat 8 i) b (takeTransaction ((wibLines (i + 1) bs).map ScriptLine.tx ++ rest) s)) rfl
      (by simp only [Config.ibufSize]; omega)
    refine ⟨m, reply, fun j => ?_, ?_⟩
    · rw [hread, ← Memory.read_writeRun_write, hostWriteIbuf, hindex]
      rfl
    · rw [List.length_cons, Nat.add_right_comm, run_succ_of_step hstep]
      exact hrun

/-! ## The input placed -/

/-- The input is a byte sequence that IBUF holds from index 0 on, and reading it draws nothing (R25, R91). -/
theorem inputBytes_of_written {s : State} {bs : List Byte} (hilen : s.ilen.toNat = bs.length)
    (h : ∀ j, j < bs.length → s.ibuf.read j = bs[j]?) : inputBytes s = bs := by
  rw [inputBytes, hilen, fetchRun_written s.draws (by simpa using h)]

/-- Settles O54: the writes place the bytes, and the write of ILEN makes them the input. -/
theorem ibufStatementLoadsInput : Obligations.IbufStatementLoadsInput := by
  unfold Obligations.IbufStatementLoadsInput
  intro s bs hlen
  have hsize : 0 + bs.length ≤ Config.ibufSize := by
    simp only [Config.ilenMax, Config.ibufSize] at hlen ⊢; omega
  obtain ⟨m, reply, hread, hrun⟩ := run_wibLines bs 0 1
    (.writeReg (numberOfReg .ilen) (BitVec.ofNat 16 bs.length) :: s.pending) (withScript [.ibuf bs] s)
    (by simp [withScript, ScriptStatement.expand, wrLine]) hsize
  refine ⟨{ s with ibuf := m, ilen := (BitVec.ofNat 16 bs.length).setWidth 8, reply := .nothing }, hrun.trans rfl,
    ?_⟩
  have hilen : ((BitVec.ofNat 16 bs.length).setWidth 8).toNat = bs.length := by
    simp only [Config.ilenMax] at hlen
    rw [BitVec.toNat_setWidth, BitVec.toNat_ofNat]; omega
  have hm (j : Nat) : m.read j = if j < bs.length then bs[j]? else s.ibuf.read j := by
    have := hread j
    rw [Memory.read_writeRun] at this
    simpa [withScript] using this
  exact ⟨inputBytes_of_written hilen fun j hj => (hm j).trans (if_pos hj), hilen, rfl, rfl,
    fun j hj => (hm j).trans (if_neg (Nat.not_lt.2 hj)), rfl, rfl, ⟨rfl, fun _ => rfl⟩, rfl, rfl, rfl, rfl, rfl, rfl,
    rfl, fun _ => rfl⟩

end Sys2Proof.Machine

/-! SUPPORT. Folding, and the decode tables: what a lookup answers, and that the two loops build the table looked up. -/

namespace Sys2Proof.Machine

open Sys2Proof

/-! ## Folding (R120, R129) -/

/-- Settles O28, capitals apart from the other bytes. -/
theorem lowerFoldsAsciiCapitals : Obligations.LowerFoldsAsciiCapitals := by
  unfold Obligations.LowerFoldsAsciiCapitals
  refine ⟨fun b => ?_, fun bs => ⟨lowerAll_length bs, lowerAll_lowerAll bs, fun i => List.getElem?_map⟩⟩
  have hcapital : (0x41 ≤ b ∧ b ≤ 0x5A) ↔ (0x41 ≤ b.toNat ∧ b.toNat ≤ 0x5A) := Iff.rfl
  rw [lower, ← if_congr hcapital rfl rfl]
  split
  next h => rw [hcapital] at h; bv_omega
  next => rfl

theorem foldInput_append (c : Codec) (bs bt : List Byte) :
    foldInput c (bs ++ bt) = foldInput c bs ++ foldInput c bt := by
  cases c with
  | std => rfl
  | ndau => exact List.map_append

/-- Settles O25: folding twice is folding once. -/
theorem ndauDecodeIgnoresCase : Obligations.NdauDecodeIgnoresCase := by
  unfold Obligations.NdauDecodeIgnoresCase
  intro s0
  have hfold : foldInput .ndau (lowerAll s0) = foldInput .ndau s0 := lowerAll_lowerAll s0
  rw [decodeSymbols, decodeSymbols, hfold, lowerAll_length]

/-! ## Lookups (R121) -/

/-- A lookup that finds a value finds the symbol at its position, counted from the first value. -/
theorem getElem?_of_valueIn {as : List Byte} {v w : Group5} {b : Byte} (hfit : v.toNat + as.length ≤ 32)
    (h : valueIn as v b = some w) : v.toNat ≤ w.toNat ∧ as[w.toNat - v.toNat]? = some b := by
  induction as generalizing v with
  | nil => cases h
  | cons a as ih =>
    rw [valueIn] at h
    rw [List.length_cons] at hfit
    split at h
    next hab =>
      cases h
      simp [hab]
    next =>
      by_cases hlast : as = []
      · subst hlast; cases h
      · have hpos : 0 < as.length := List.length_pos_of_ne_nil hlast
        have hnext : (v + 1).toNat = v.toNat + 1 := by bv_omega
        obtain ⟨hle, hget⟩ := ih (by omega) h
        rw [hnext] at hle hget
        have hindex : w.toNat - v.toNat = w.toNat - (v.toNat + 1) + 1 := by omega
        exact ⟨by omega, by rw [hindex, List.getElem?_cons_succ, hget]⟩

theorem valueIn_eq_none {as : List Byte} {b : Byte} (h : b ∉ as) (v : Group5) : valueIn as v b = none := by
  induction as generalizing v with
  | nil => rfl
  | cons a as ih =>
    obtain ⟨hne, hnot⟩ := not_or.1 (mt List.mem_cons.2 h)
    rw [valueIn, if_neg (Ne.symm hne), ih hnot]

/-- What is looked up is the value of the symbol (R121). -/
theorem sym_of_lut {c : Codec} {b : Byte} {v : Group5} (h : lut c b = some v) : sym c v = b := by
  obtain ⟨hlen, _, _⟩ := (alphabetWellFormed_iff _ _).1 (alphabet_wellFormed c)
  obtain ⟨_, hget⟩ := getElem?_of_valueIn (v := 0) (by simp [hlen]) h
  rw [sym, List.getD_eq_getElem?_getD]
  simpa using congrArg (·.getD 0x00) hget

theorem lut_eq_some_iff (c : Codec) (b : Byte) (v : Group5) : lut c b = some v ↔ sym c v = b :=
  ⟨sym_of_lut, fun h => h ▸ lut_sym c v⟩

/-- Bytes that are all looked up are the symbols of their values. -/
theorem exists_symbols_of_lut {c : Codec} {bs : List Byte} (h : ∀ b ∈ bs, (lut c b).isSome = true) :
    ∃ gs : List Group5, gs.length = bs.length ∧ bs = gs.map (sym c) := by
  induction bs with
  | nil => exact ⟨[], rfl, rfl⟩
  | cons b bs ih =>
    obtain ⟨hb, hbs⟩ := List.forall_mem_cons.1 h
    obtain ⟨v, hv⟩ := Option.isSome_iff_exists.1 hb
    obtain ⟨gs, hlen, rfl⟩ := ih hbs
    exact ⟨v :: gs, by simp, by rw [List.map_cons, sym_of_lut hv]⟩

/-! ## The table the two loops build (R121) -/

/-- The second loop writes the entry of each symbol, once, and no other entry. -/
theorem fillTable_getElem? {t : List (Option Group5)} {as : List Byte} {b : Byte} (hb : b.toNat < t.length)
    (hnodup : as.Nodup) (v : Group5) :
    (fillTable t v as)[b.toNat]? = if b ∈ as then some (valueIn as v b) else t[b.toNat]? := by
  induction as generalizing t v with
  | nil => rfl
  | cons a as ih =>
    obtain ⟨hnot, hrest⟩ := List.nodup_cons.1 hnodup
    rw [fillTable, ih (by rwa [List.length_set]) hrest, valueIn]
    by_cases hab : a = b
    · subst hab
      simp [hnot, hb]
    · have hindex : a.toNat ≠ b.toNat := fun h => hab (BitVec.eq_of_toNat_eq h)
      simp [hab, Ne.symm hab, List.getElem?_set_ne hindex]

theorem decodeTable_alphabet (c : Codec) (b : Byte) : (decodeTable (alphabet c))[b.toNat]? = some (lut c b) := by
  obtain ⟨_, hnodup, _⟩ := (alphabetWellFormed_iff _ _).1 (alphabet_wellFormed c)
  have hb : b.toNat < 256 := b.isLt
  rw [decodeTable, fillTable_getElem? (by rwa [List.length_replicate]) hnodup, lut]
  split
  next => rfl
  next hnot => rw [valueIn_eq_none hnot, List.getElem?_replicate, if_pos hb]

/-! ## The ranges of the two tables (R96, R97, R121) -/

theorem sym_std_toNat (v : Group5) : (sym .std v).toNat = if v.toNat < 26 then v.toNat + 0x41 else v.toNat + 24 := by
  revert v; decide

theorem sym_ndau_toNat (v : Group5) :
    (sym .ndau v).toNat =
      if v.toNat < 11 then v.toNat + 0x61
      else if v.toNat < 13 then v.toNat + 0x62
      else if v.toNat < 24 then v.toNat + 0x63
      else v.toNat + 26 := by
  revert v; decide

theorem lut_toNat_of_sym {c : Codec} {b : Byte} {n : Nat} (hn : n < 32)
    (h : (sym c (BitVec.ofNat 5 n)).toNat = b.toNat) : (lut c b).map BitVec.toNat = some n := by
  rw [(lut_eq_some_iff c b _).2 (BitVec.eq_of_toNat_eq h), Option.map_some, BitVec.toNat_ofNat,
    Nat.mod_eq_of_lt hn]

theorem lut_eq_none_of_sym {c : Codec} {b : Byte} (h : ∀ v, (sym c v).toNat ≠ b.toNat) : lut c b = none :=
  Option.eq_none_iff_forall_ne_some.2 fun v hv => h v (congrArg BitVec.toNat (sym_of_lut hv))

theorem lut_std_toNat (b : Byte) : (lut .std b).map BitVec.toNat =
    if 0x41 ≤ b.toNat ∧ b.toNat ≤ 0x5A then some (b.toNat - 0x41)
    else if 0x32 ≤ b.toNat ∧ b.toNat ≤ 0x37 then some (b.toNat - 0x32 + 26)
    else none := by
  split_ifs with hletter hdigit
  · apply lut_toNat_of_sym (by omega)
    rw [sym_std_toNat, BitVec.toNat_ofNat]; split_ifs <;> omega
  · apply lut_toNat_of_sym (by omega)
    rw [sym_std_toNat, BitVec.toNat_ofNat]; split_ifs <;> omega
  · rw [lut_eq_none_of_sym, Option.map_none]
    intro v
    have := v.isLt
    rw [sym_std_toNat]; split_ifs <;> omega

theorem lut_ndau_toNat (b : Byte) : (lut .ndau b).map BitVec.toNat =
    if 0x61 ≤ b.toNat ∧ b.toNat ≤ 0x6B then some (b.toNat - 0x61)
    else if b.toNat = 0x6D then some 11
    else if b.toNat = 0x6E then some 12
    else if 0x70 ≤ b.toNat ∧ b.toNat ≤ 0x7A then some (b.toNat - 0x70 + 13)
    else if 0x32 ≤ b.toNat ∧ b.toNat ≤ 0x39 then some (b.toNat - 0x32 + 24)
    else none := by
  split_ifs with hak hm hn hpz hdigit
  case neg =>
    rw [lut_eq_none_of_sym, Option.map_none]
    intro v
    have := v.isLt
    rw [sym_ndau_toNat]; split_ifs <;> omega
  all_goals
    apply lut_toNat_of_sym (by omega)
    rw [sym_ndau_toNat, BitVec.toNat_ofNat]; split_ifs <;> omega

/-- A capital is in the ndau table only once folded, and then unless it is L or O (R97, R121). -/
theorem lut_ndau_capital {b : Byte} (hA : 0x41 ≤ b.toNat) (hZ : b.toNat ≤ 0x5A) :
    lut .ndau b = none ∧ (lut .ndau (lower b) = none ↔ b = 0x4C ∨ b = 0x4F) := by
  have hlower : (lower b).toNat = b.toNat + 0x20 := (lowerFoldsAsciiCapitals.1 b).trans (if_pos ⟨hA, hZ⟩)
  have hL : b = 0x4C ↔ b.toNat = 0x4C := BitVec.toNat_eq
  have hO : b = 0x4F ↔ b.toNat = 0x4F := BitVec.toNat_eq
  constructor
  · rw [← Option.map_eq_none_iff (f := BitVec.toNat), lut_ndau_toNat, if_neg (by omega), if_neg (by omega),
      if_neg (by omega), if_neg (by omega), if_neg (by omega)]
  · rw [← Option.map_eq_none_iff (f := BitVec.toNat), lut_ndau_toNat, hlower, hL, hO]
    split_ifs <;> simp <;> omega

/-- Settles O29: the table by the entry its loops write for each symbol, the ranges by the symbol of each value. -/
theorem decodeTablesMatch : Obligations.DecodeTablesMatch := by
  unfold Obligations.DecodeTablesMatch
  exact ⟨decodeTable_alphabet, lut_sym, fun c b v => sym_of_lut, lut_std_toNat, lut_ndau_toNat,
    fun b hA hZ => lut_ndau_capital hA hZ⟩

end Sys2Proof.Machine

/-! SUPPORT. Decoding inverts encoding: the bytes of a quantum come back from its real groups, and full quanta are coded
one after another. -/

namespace Sys2Proof.Machine

open Sys2Proof

/-! ## The bytes of a quantum come back from its groups (R101, R102) -/

theorem quantumOfGroups_groupsOf (q : Quantum) : quantumOfGroups (groupsOf q) = q := by
  have hjoin (a b n : Nat) (h : a = b + 5) : q.extractLsb' a n ++ q.extractLsb' b 5 = q.extractLsb' b (n + 5) :=
    BitVec.extractLsb'_append_extractLsb'_eq_extractLsb' h
  simp only [quantumOfGroups, groupsOf, List.map_cons, List.map_nil, List.getD_cons_zero, List.getD_cons_succ, groupOf]
  rw [hjoin _ _ _ rfl, hjoin _ _ _ rfl, hjoin _ _ _ rfl, hjoin _ _ _ rfl, hjoin _ _ _ rfl, hjoin _ _ _ rfl,
    hjoin _ _ _ rfl]
  exact BitVec.extractLsb'_eq_self

theorem bytesOf_quantumOfBytes (bs : List Byte) :
    bytesOf (quantumOfBytes bs) = [bs.getD 0 0, bs.getD 1 0, bs.getD 2 0, bs.getD 3 0, bs.getD 4 0] := by
  have hskip {k : Nat} (n : Nat) (x : BitVec k) (b : Byte) :
      (x ++ b).extractLsb' (n + 8) 8 = x.extractLsb' n 8 :=
    BitVec.extractLsb'_append_eq_of_le (Nat.le_add_left 8 n)
  have hlast {k : Nat} (x : BitVec k) (b : Byte) : (x ++ b).extractLsb' 0 8 = b := BitVec.extractLsb'_append_eq_right
  simp only [bytesOf, byteOf, quantumOfBytes, List.cons.injEq, and_true, Nat.reduceMul, Nat.reduceSub]
  refine ⟨?_, ?_, ?_, ?_, ?_⟩
  · rw [hskip 24, hskip 16, hskip 8, hskip 0]; exact BitVec.extractLsb'_eq_self
  · rw [hskip 16, hskip 8, hskip 0]; exact hlast _ _
  · rw [hskip 8, hskip 0]; exact hlast _ _
  · rw [hskip 0]; exact hlast _ _
  · exact hlast _ _

theorem take_bytesOf_quantumOfBytes {bs : List Byte} (h : bs.length ≤ 5) :
    (bytesOf (quantumOfBytes bs)).take bs.length = bs := by
  rw [bytesOf_quantumOfBytes]
  match bs, h with
  | [], _ | [_], _ | [_, _], _ | [_, _, _], _ | [_, _, _, _], _ | [_, _, _, _, _], _ => simp

/-- Groups that are missing are 0 (R129). -/
theorem quantumOfGroups_append_zeros (gs : List Group5) (k : Nat) :
    quantumOfGroups (gs ++ List.replicate k 0) = quantumOfGroups gs := by
  have hget (p : Nat) : (gs ++ List.replicate k 0).getD p 0 = gs.getD p 0 := by
    rcases Nat.lt_or_ge p gs.length with hlt | hge
    · exact List.getD_append _ _ _ _ hlt
    · rw [List.getD_append_right _ _ _ _ hge, List.getD_eq_getElem?_getD,
        List.getElem?_getD_replicate_default_eq, List.getD_eq_default _ _ hge]
  simp only [quantumOfGroups, hget]

/-- The groups behind the real ones hold no bit of the bytes (R102). -/
theorem groupsOf_eq_realGroups_append_zeros {bs : List Byte} (hpos : 0 < bs.length) (hle : bs.length ≤ 5) :
    groupsOf (quantumOfBytes bs) = realGroups bs ++ List.replicate (8 - realSymbols bs.length) 0 := by
  have hzeros : (groupsOf (quantumOfBytes bs)).drop (realSymbols bs.length) =
      List.replicate (8 - realSymbols bs.length) 0 := by
    apply List.map_injective_iff.2 BitVec.toNat_injective
    rw [List.map_drop, groupsOf_quantumOfBytes_toNat]
    match bs, hpos, hle with
    | [_], _, _ | [_, _], _, _ | [_, _, _], _, _ | [_, _, _, _], _, _ | [_, _, _, _, _], _, _ =>
      simp [realSymbols]
  rw [realGroups, ← hzeros, List.take_append_drop]

/-- The real groups of up to five bytes determine them (R101, R102). -/
theorem quantumBytes_realGroups {bs : List Byte} (hpos : 0 < bs.length) (hle : bs.length ≤ 5) :
    quantumBytes (realGroups bs) (realGroups bs).length = bs := by
  have hq : quantumOfGroups (realGroups bs) = quantumOfBytes bs := by
    rw [← quantumOfGroups_append_zeros, ← groupsOf_eq_realGroups_append_zeros hpos hle, quantumOfGroups_groupsOf]
  have hbytes : 5 * (realGroups bs).length / 8 = bs.length := by
    rw [realGroups_length hle, realSymbols]; omega
  rw [quantumBytes, hq, hbytes, take_bytesOf_quantumOfBytes hle]

/-! ## Encoding, quantum by quantum (R123, R125, R126) -/

/-- Settles O16: the length of an encoding is the model's `encodedLen`, which is the rounded-up quotient. -/
theorem encodeLengthExact : Obligations.EncodeLengthExact := by
  unfold Obligations.EncodeLengthExact
  refine ⟨fun n => ?_, encodeBytes_length, by decide⟩
  simp only [encodedLen]
  split_ifs <;> omega

/-- What is left of a sequence behind its full quanta is a short quantum. -/
theorem length_lt_of_not_full {short : List Byte}
    (h : ∀ b0 b1 b2 b3 b4 rest, short = b0 :: b1 :: b2 :: b3 :: b4 :: rest → False) : short.length < 5 := by
  match short, h with
  | [], _ | [_], _ | [_, _], _ | [_, _, _], _ | [_, _, _, _], _ => simp
  | b0 :: b1 :: b2 :: b3 :: b4 :: rest, h => exact (h b0 b1 b2 b3 b4 rest rfl).elim

/-- Settles O19, by the quanta of the first sequence. -/
theorem encodeSplitsAtQuantum : Obligations.EncodeSplitsAtQuantum := by
  unfold Obligations.EncodeSplitsAtQuantum
  intro c bs bt hfull
  induction bs using encodeBytes.induct with
  | case1 => rfl
  | case2 b0 b1 b2 b3 b4 rest ih =>
    have hrest : rest.length % 5 = 0 := by
      simp only [List.length_cons] at hfull; omega
    simp only [List.cons_append, encodeBytes, ih hrest, List.append_assoc]
  | case3 short hne hshort =>
    have hpos : 0 < short.length := List.length_pos_of_ne_nil hne
    have hlt := length_lt_of_not_full hshort
    omega

/-! ## Decoding an encoding (R134) -/

/-- Folding leaves an encoding: it is symbols of the codec and pads. -/
theorem foldInput_encodeBytes (c : Codec) (bs : List Byte) : foldInput c (encodeBytes c bs) = encodeBytes c bs := by
  obtain ⟨gs, _, henc⟩ := encodeBytes_eq_symbols_append_pads c bs
  rw [henc, foldInput_of_symbols]

/-- A short quantum of an encoding, at the end of the input, gives its bytes back (R102, R129, R132). -/
theorem scan_encodeQuantum_short (c : Codec) (n i : Nat) {bs : List Byte} (hpos : 0 < bs.length) (hlt : bs.length < 5) :
    scan c n i [] (encodeQuantum c bs) = .ok bs := by
  have hlen : (realGroups bs).length = realSymbols bs.length := realGroups_length hlt.le
  have hreal : realSymbols bs.length = (8 * bs.length + 4) / 5 := rfl
  rw [encodeQuantum_eq c hlt.le, scan_symbols c n i [] _ _ (by simp; omega), List.nil_append, ← hlen,
    scan_pads c n _ _ (by omega) (by omega) (by omega) (by omega), quantumBytes_realGroups hpos hlt.le]

/-- The scan of an encoding gives the bytes back, wherever it stands in the input (R129). -/
theorem scan_encodeBytes (c : Codec) (n i : Nat) (bs : List Byte) : scan c n i [] (encodeBytes c bs) = .ok bs := by
  induction bs using encodeBytes.induct generalizing i with
  | case1 => rfl
  | case2 b0 b1 b2 b3 b4 rest ih =>
    have hsyms : encodeQuantum c [b0, b1, b2, b3, b4] = (realGroups [b0, b1, b2, b3, b4]).map (sym c) := by
      simpa [realSymbols] using encodeQuantum_eq c (bs := [b0, b1, b2, b3, b4]) (by simp)
    have hlen : (realGroups [b0, b1, b2, b3, b4]).length = 8 := by
      simp [realGroups_length, realSymbols]
    have hbytes : quantumBytes (realGroups [b0, b1, b2, b3, b4]) 8 = [b0, b1, b2, b3, b4] := by
      rw [← hlen]; exact quantumBytes_realGroups (Nat.succ_pos _) le_rfl
    rw [encodeBytes, hsyms, scan_full_quantum c n i _ _ hlen, ih, hbytes]
    rfl
  | case3 short hne hshort =>
    have hpos : 0 < short.length := List.length_pos_of_ne_nil hne
    have hlt := length_lt_of_not_full hshort
    rw [encodeBytes_of_length_le c hpos hlt.le, scan_encodeQuantum_short c n i hpos hlt]

/-- Settles O26: an encoding is not changed by folding, and its scan gives the bytes back, quantum by quantum. -/
theorem decodeInvertsEncode : Obligations.DecodeInvertsEncode := by
  unfold Obligations.DecodeInvertsEncode
  intro c bs
  rw [decodeSymbols, foldInput_encodeBytes, scan_encodeBytes]

end Sys2Proof.Machine

/-! SUPPORT. What a decode answers: full quanta before a rest, the six corruption cases, and the lengths. -/

namespace Sys2Proof.Machine

open Sys2Proof

/-! ## Full quanta before a rest (R129, R133) -/

theorem quantumBytes_length (gs : List Group5) {j : Nat} (hj : j ≤ 8) : (quantumBytes gs j).length = 5 * j / 8 := by
  simp only [quantumBytes, bytesOf, List.length_take, List.length_cons, List.length_nil]
  omega

/-- The symbols of full quanta give five bytes for each quantum, and the scan goes on behind them (R129). -/
theorem scan_full_quanta (c : Codec) {k : Nat} {gs : List Group5} (hlen : gs.length = 8 * k) :
    ∃ out : List Byte, out.length = 5 * k ∧ ∀ n i rest,
      scan c n i [] (gs.map (sym c) ++ rest) = (scan c n (i + gs.length) [] rest).map (out ++ ·) := by
  induction k generalizing gs with
  | zero =>
    obtain rfl : gs = [] := List.eq_nil_of_length_eq_zero hlen
    refine ⟨[], rfl, fun n i rest => ?_⟩
    simp only [List.map_nil, List.nil_append, List.length_nil, Nat.add_zero]
    cases scan c n i [] rest <;> rfl
  | succ k ih =>
    have htake : (gs.take 8).length = 8 := by rw [List.length_take]; omega
    have hdrop : (gs.drop 8).length = 8 * k := by rw [List.length_drop]; omega
    obtain ⟨out, hout, hscan⟩ := ih hdrop
    refine ⟨quantumBytes (gs.take 8) 8 ++ out, ?_, fun n i rest => ?_⟩
    · rw [List.length_append, hout, quantumBytes_length _ le_rfl]; omega
    · have hsplit : gs.map (sym c) ++ rest = (gs.take 8).map (sym c) ++ ((gs.drop 8).map (sym c) ++ rest) := by
        rw [← List.append_assoc, ← List.map_append, List.take_append_drop]
      have hindex : i + 8 + (gs.drop 8).length = i + gs.length := by omega
      rw [hsplit, scan_full_quantum c n i _ _ htake, hscan, hindex]
      cases scan c n (i + gs.length) [] rest with
      | error off => rfl
      | ok bs => simp [Except.map]

/-- Any symbols: the full quanta give their bytes, and those left begin a quantum (R129). -/
theorem scan_symbol_run (c : Codec) (gs : List Group5) :
    ∃ (out : List Byte) (last : List Group5), out.length = 5 * (gs.length / 8) ∧ last.length = gs.length % 8 ∧
      ∀ n i rest, scan c n i [] (gs.map (sym c) ++ rest) = (scan c n (i + gs.length) last rest).map (out ++ ·) := by
  have htake : (gs.take (8 * (gs.length / 8))).length = 8 * (gs.length / 8) := by rw [List.length_take]; omega
  have hdrop : (gs.drop (8 * (gs.length / 8))).length = gs.length % 8 := by rw [List.length_drop]; omega
  obtain ⟨out, hout, hscan⟩ := scan_full_quanta c htake
  refine ⟨out, gs.drop (8 * (gs.length / 8)), hout, hdrop, fun n i rest => ?_⟩
  have hsplit : gs.map (sym c) ++ rest = (gs.take (8 * (gs.length / 8))).map (sym c) ++
      ((gs.drop (8 * (gs.length / 8))).map (sym c) ++ rest) := by
    rw [← List.append_assoc, ← List.map_append, List.take_append_drop]
  have hindex : i + (gs.take (8 * (gs.length / 8))).length + (gs.drop (8 * (gs.length / 8))).length =
      i + gs.length := by omega
  rw [hsplit, hscan, scan_symbols c n _ [] _ rest (by simp; omega), hindex, List.nil_append]

/-! ## A scan further on in a longer input (R130) -/

theorem paddingFault_shift (d n i need : Nat) (rest : List Byte) :
    paddingFault (d + n) (d + i) need rest = (paddingFault n i need rest).map (d + ·) := by
  induction rest generalizing need with
  | nil => cases need <;> rfl
  | cons b rest ih =>
    cases need with
    | zero => rfl
    | succ need =>
      rw [paddingFault, paddingFault, ih]
      split <;> rfl

theorem closePadded_shift (d n i : Nat) (gs : List Group5) (rest : List Byte) :
    closePadded (d + n) (d + i) gs rest = (closePadded n i gs rest).mapError (d + ·) := by
  rw [closePadded, closePadded, paddingFault_shift]
  cases paddingFault n i (7 - gs.length) rest with
  | some off => rfl
  | none =>
    dsimp only [Option.map_none]
    split <;> rfl

/-- A scan that begins `d` symbols further on in an input `d` symbols longer reports offsets `d` higher, and gives the
same bytes (R130). -/
theorem scan_shift (c : Codec) (d n i : Nat) (gs : List Group5) (bs : List Byte) :
    scan c (d + n) (d + i) gs bs = (scan c n i gs bs).mapError (d + ·) := by
  induction bs generalizing i gs with
  | nil =>
    rw [scan, scan]
    split <;> rfl
  | cons b rest ih =>
    rw [scan, scan, closePadded_shift, Nat.add_assoc]
    split
    next => rfl
    cases lut c b with
    | none => rfl
    | some v =>
      dsimp only
      split
      next =>
        rw [ih]
        cases scan c n (i + 1) [] rest <;> rfl
      next => exact ih _ _

/-- Settles O59: the symbols of the first sequence are full quanta, and the scan of the second begins behind them. -/
theorem decodeSplitsAtQuantum : Obligations.DecodeSplitsAtQuantum := by
  unfold Obligations.DecodeSplitsAtQuantum
  intro c pre hfull hsyms
  obtain ⟨gs, hlen, hgs⟩ := exists_symbols_of_lut hsyms
  rw [foldInput_length] at hlen
  obtain ⟨out, hout, hscan⟩ := scan_full_quanta c (k := pre.length / 8) (gs := gs) (by omega)
  have hjoined (rest : List Byte) :
      decodeSymbols c (pre ++ rest) = ((decodeSymbols c rest).mapError (pre.length + ·)).map (out ++ ·) := by
    rw [decodeSymbols, decodeSymbols, ← scan_shift, foldInput_append, hgs, hscan, hlen, List.length_append,
      Nat.zero_add, Nat.add_zero]
  refine ⟨out, ?_, hout, fun rest => ⟨fun bs hok => ?_, fun off herr => ?_⟩⟩
  · have hnil : decodeSymbols c [] = .ok [] := by cases c <;> rfl
    have halone := hjoined []
    rw [hnil, List.append_nil] at halone
    simpa [Except.map, Except.mapError] using halone
  · rw [hjoined, hok]; rfl
  · rw [hjoined, herr]; rfl

/-! ## What follows the symbols (R130, R131, R132) -/

/-- A symbol that is not in the alphabet and does not terminate is case E6 (R130, R131). -/
theorem scan_of_not_symbol {c : Codec} {b : Byte} {gs : List Group5} {rest : List Byte} (n i : Nat)
    (hlut : lut c b = none) (hterm : terminates b gs.length rest.length = false) :
    scan c n i gs (b :: rest) = .error i := by
  rw [scan, hterm, hlut]
  rfl

/-- A pad behind two symbols or more with fewer than eight symbols after it closes the quantum (R131). -/
theorem scan_pad {gs : List Group5} {rest : List Byte} (c : Codec) (n i : Nat) (h2 : 2 ≤ gs.length)
    (hrest : rest.length < 8) : scan c n i gs (pad :: rest) = closePadded n i gs rest := by
  rw [scan, if_pos (by simp [terminates, h2, hrest])]

/-- The pads of a padding run are counted off (R129). -/
theorem paddingFault_pads (n i k need : Nat) (rest : List Byte) :
    paddingFault n i (k + need) (List.replicate k pad ++ rest) = paddingFault n i need rest := by
  induction k with
  | zero => rw [Nat.zero_add, List.replicate_zero, List.nil_append]
  | succ k ih => rw [Nat.add_right_comm, List.replicate_succ, List.cons_append, paddingFault, if_pos rfl, ih]

/-- An input that ends inside the padding is case E2 (R130). -/
theorem closePadded_too_few {gs : List Group5} {k : Nat} (n i : Nat) (hk : k < 7 - gs.length) :
    closePadded n i gs (List.replicate k pad) = .error n := by
  obtain ⟨need, hneed⟩ : ∃ need, 7 - gs.length = k + (need + 1) := ⟨7 - gs.length - k - 1, by omega⟩
  have hfault : paddingFault n i (7 - gs.length) (List.replicate k pad) = some n := by
    rw [hneed, ← List.append_nil (List.replicate k pad), paddingFault_pads]; rfl
  rw [closePadded, hfault]

/-- A symbol that is no pad inside the padding is case E3, any symbol behind it is case E4 (R130). -/
theorem closePadded_interrupted {gs : List Group5} {k : Nat} {x : Byte} (n i : Nat) (more : List Byte)
    (hk : k ≤ 7 - gs.length) (hx : k < 7 - gs.length → x ≠ pad) :
    closePadded n i gs (List.replicate k pad ++ x :: more) = .error i := by
  obtain ⟨need, hneed⟩ := Nat.exists_eq_add_of_le hk
  have hfault : paddingFault n i (7 - gs.length) (List.replicate k pad ++ x :: more) = some i := by
    rw [hneed, paddingFault_pads]
    cases need with
    | zero => rfl
    | succ need => rw [paddingFault, if_neg (hx (by omega))]
  rw [closePadded, hfault]

/-- A complete padding is case E5 behind 3 and 6 symbols, and closes the quantum behind the others (R130, R132). -/
theorem closePadded_complete (n i : Nat) (gs : List Group5) :
    closePadded n i gs (List.replicate (7 - gs.length) pad) =
      if gs.length = 3 ∨ gs.length = 6 then .error i else .ok (quantumBytes gs gs.length) := by
  rw [closePadded, paddingFault_replicate]

/-- Settles O22: the symbols are scanned up to the rest, and each clause is what the scan does with the rest. -/
theorem decodeOutcomes : Obligations.DecodeOutcomes := by
  unfold Obligations.DecodeOutcomes
  intro c s0 pre rest hfold hsyms
  obtain ⟨gs, hlen, hgs⟩ := exists_symbols_of_lut hsyms
  obtain ⟨out, last, hout, hlast, hscan⟩ := scan_symbol_run c gs
  rw [hlen] at hout hlast
  have hdecode : decodeSymbols c s0 = (scan c s0.length pre.length last rest).map (out ++ ·) := by
    rw [decodeSymbols, hfold, hgs, hscan, Nat.zero_add, List.length_map]
  rw [hdecode, ← hlast]
  refine ⟨?full, ?unpadded, ?notSymbol, ?tooFew, ?inPadding, ?behindPadding, ?impossible, ?short⟩
  case full =>
    rintro rfl h0
    rw [scan, if_pos h0]
    exact ⟨out ++ [], rfl, by simpa using hout⟩
  case unpadded =>
    rintro rfl h0
    rw [scan, if_neg h0]; rfl
  case notSymbol =>
    rintro b more rfl hlut hterm
    rw [scan_of_not_symbol _ _ hlut (by simpa [terminates] using hterm)]; rfl
  case tooFew =>
    rintro k rfl h2 hk
    rw [scan_pad c _ _ h2 (by simp; omega), closePadded_too_few _ _ hk]; rfl
  case inPadding =>
    rintro k x more rfl hx h2 hk hmore
    rw [scan_pad c _ _ h2 (by simp; omega), closePadded_interrupted _ _ _ hk.le fun _ => hx]; rfl
  case behindPadding =>
    rintro x more rfl h2 hmore
    rw [scan_pad c _ _ h2 (by simp; omega), closePadded_interrupted _ _ _ le_rfl fun h => absurd h (lt_irrefl _)]; rfl
  case impossible =>
    rintro rfl h36
    rw [scan_pad c _ _ (by omega) (by simp; omega), closePadded_complete, if_pos h36]; rfl
  case short =>
    rintro rfl hmem
    simp only [List.mem_cons, List.not_mem_nil, or_false] at hmem
    rw [scan_pad c _ _ (by omega) (by simp; omega), closePadded_complete, if_neg (by omega)]
    refine ⟨out ++ quantumBytes last last.length, rfl, ?_⟩
    rw [List.length_append, hout, quantumBytes_length _ (by omega)]

/-! ## Lengths of a decode (R124, R134) -/

/-- A padding that closes a quantum is complete and ends the input (R129, R132). -/
theorem closePadded_ok {n i : Nat} {gs : List Group5} {rest out : List Byte} (h : closePadded n i gs rest = .ok out) :
    rest = List.replicate (7 - gs.length) pad ∧ out = quantumBytes gs gs.length := by
  unfold closePadded at h
  rcases paddingFault_cases n i (7 - gs.length) rest with ⟨hp, hrest⟩ | ⟨hp, _⟩ | ⟨hp, _⟩ <;> rw [hp] at h
  · dsimp only at h
    split at h
    next => cases h
    next => cases h; exact ⟨hrest, rfl⟩
  · cases h
  · cases h

theorem two_le_of_terminates {b : Byte} {j remaining : Nat} (h : terminates b j remaining = true) : 2 ≤ j := by
  simp only [terminates, Bool.and_eq_true, decide_eq_true_eq] at h
  obtain ⟨⟨_, h2⟩, _⟩ := h
  exact h2

/-- A scan that succeeds has read whole quanta, and lost at most four bytes, to the padding of the last (R134). -/
theorem scan_ok_length {c : Codec} {n i : Nat} {gs : List Group5} {bs out : List Byte} (hgs : gs.length ≤ 7)
    (h : scan c n i gs bs = .ok out) :
    (gs.length + bs.length) % 8 = 0 ∧ (gs.length + bs.length) / 8 * 5 ≤ out.length + 4 := by
  induction bs generalizing i gs out with
  | nil =>
    rw [scan] at h
    split at h
    next h0 => simp [h0]
    next => cases h
  | cons b rest ih =>
    rw [scan] at h
    rw [List.length_cons]
    split at h
    next hterm =>
      have h2 := two_le_of_terminates hterm
      obtain ⟨hrest, hout⟩ := closePadded_ok h
      have hlen : rest.length = 7 - gs.length := by rw [hrest, List.length_replicate]
      have hbytes : out.length = 5 * gs.length / 8 := by rw [hout, quantumBytes_length _ (by omega)]
      omega
    split at h
    next => cases h
    next v _ =>
      split at h
      next h7 =>
        split at h
        next => cases h
        next out' hrest =>
          cases h
          obtain ⟨hmod, hle⟩ := ih (gs := []) (Nat.zero_le 7) hrest
          rw [List.length_append, quantumBytes_length _ le_rfl]
          rw [List.length_nil] at hmod hle
          omega
      next hopen =>
        have hnext : (gs ++ [v]).length = gs.length + 1 := by simp
        obtain ⟨hmod, hle⟩ := ih (by omega) h
        rw [hnext] at hmod hle
        omega

/-- The length of a decoded sequence, below and above (R124, R134). -/
theorem decodeSymbols_ok_bounds {c : Codec} {s0 bs : List Byte} (h : decodeSymbols c s0 = .ok bs) :
    s0.length % 8 = 0 ∧ bs.length ≤ decodedLen s0.length ∧ decodedLen s0.length ≤ bs.length + 4 := by
  have hupper := decodeSymbols_ok_length h
  obtain ⟨hmod, hlower⟩ := scan_ok_length (gs := []) (Nat.zero_le 7) h
  rw [foldInput_length, List.length_nil, Nat.zero_add] at hmod hlower
  rw [decodedLen]
  omega

/-- Settles O24, by the lengths of a scan that succeeds and the offsets of one that fails. -/
theorem decodeLengthBounds : Obligations.DecodeLengthBounds := by
  unfold Obligations.DecodeLengthBounds
  exact fun c s0 => ⟨fun bs => decodeSymbols_ok_bounds, fun off => decodeSymbols_error_le⟩

end Sys2Proof.Machine

/-! SUPPORT. The commands ENC and DEC: the state each leaves, and the way back through both. -/

namespace Sys2Proof.Machine

open Sys2Proof

/-! ## What ENC and DEC answer (R127, R128, R135, R136) -/

theorem exec_encoderOf (c : Codec) (s : State) :
    exec (encoderOf c) s = .next (emit (encodeBytes c (inputBytes s)) (beginCommand s)) := by
  cases c <;> exact exec_eq_next _ s

theorem exec_decoderOf (c : Codec) (s : State) :
    exec (decoderOf c) s = .next (decodeInto c (inputBytes s) (beginCommand s)) := by
  cases c <;> exact exec_eq_next _ s

theorem exec_decoderOf_ok {c : Codec} {s : State} {bs : List Byte} (h : decodeSymbols c (inputBytes s) = .ok bs) :
    exec (decoderOf c) s = .next (emit bs (beginCommand s)) := by
  rw [exec_decoderOf, decodeInto, h]

theorem exec_decoderOf_error {c : Codec} {s : State} {off : Nat} (h : decodeSymbols c (inputBytes s) = .error off) :
    exec (decoderOf c) s = .next (raise (.corrupt off) (beginCommand s)) := by
  rw [exec_decoderOf, decodeInto, h]

theorem eq_encoderOf_of_mem {p : Instr × Codec} (hp : p ∈ [(Instr.encStd, Codec.std), (Instr.encNdau, Codec.ndau)]) :
    p.1 = encoderOf p.2 := by
  simp only [List.mem_cons, List.not_mem_nil, or_false] at hp
  rcases hp with rfl | rfl <;> rfl

theorem eq_decoderOf_of_mem {p : Instr × Codec} (hp : p ∈ [(Instr.decStd, Codec.std), (Instr.decNdau, Codec.ndau)]) :
    p.1 = decoderOf p.2 := by
  simp only [List.mem_cons, List.not_mem_nil, or_false] at hp
  rcases hp with rfl | rfl <;> rfl

/-- An emission that fits the empty OBUF is the output (R33). -/
theorem outputIs_emit {bs : List Byte} {s : State} (hobuf : s.obuf = []) (hfit : bs.length ≤ Config.obufSize) :
    OutputIs (emit bs s) bs := by
  refine ⟨toNat_olen_of_fits hfit, fun j _ => ?_⟩
  rw [emit_obuf, hobuf, Memory.read_writeRun_nil]

/-- An emission by a command leaves all but the output as the prologue left it (R93). -/
theorem emit_beginCommand_frame (bs : List Byte) (s : State) :
    NoFailure (emit bs (beginCommand s)) ∧ (emit bs (beginCommand s)).kind = 0x00 ∧
      (emit bs (beginCommand s)).matched = false ∧ (emit bs (beginCommand s)).crc = s.crc ∧
      AddressSlotKept s (emit bs (beginCommand s)) ∧ OperandsKept s (emit bs (beginCommand s)) :=
  ⟨⟨rfl, rfl, rfl⟩, rfl, rfl, rfl, ⟨rfl, fun _ => rfl⟩, rfl, rfl, rfl, fun _ => rfl⟩

theorem encodeBytes_input_fits (c : Codec) (s : State) :
    (encodeBytes c (inputBytes s)).length ≤ Config.obufSize := by
  have := s.ilen.isLt
  rw [encodeBytes_length, inputBytes_length, encodedLen, Config.obufSize]
  omega

/-- Settles O15: ENC emits the encoding of its input into the empty OBUF, which it fits. -/
theorem encCommandsComplete : Obligations.EncCommandsComplete := by
  unfold Obligations.EncCommandsComplete
  refine ⟨rfl, rfl, fun p hp s => ?_, by decide, by decide, by decide⟩
  have hout := outputIs_emit (beginCommand_obuf s) (encodeBytes_input_fits p.2 s)
  obtain ⟨hok, hkind, hmatched, hcrc, haddr, hoperands⟩ := emit_beginCommand_frame (encodeBytes p.2 (inputBytes s)) s
  have holen : (emit (encodeBytes p.2 (inputBytes s)) (beginCommand s)).olen.toNat = encodedLen s.ilen.toNat := by
    obtain ⟨hlen, _⟩ := hout
    rw [hlen, encodeBytes_length, inputBytes_length]
  refine ⟨_, eq_encoderOf_of_mem hp ▸ exec_encoderOf p.2 s, hout, holen, fun h0 => ?_, fun h255 => ?_, hok, rfl, hkind,
    hmatched, hcrc, haddr, hoperands⟩
  · exact BitVec.eq_of_toNat_eq (holen.trans (by rw [h0]; rfl))
  · exact BitVec.eq_of_toNat_eq (holen.trans (by rw [h255]; rfl))

theorem decoded_input_fits {c : Codec} {s : State} {bs : List Byte} (h : decodeSymbols c (inputBytes s) = .ok bs) :
    bs.length ≤ decodedLen s.ilen.toNat ∧ bs.length ≤ Config.obufSize := by
  obtain ⟨_, hle, _⟩ := decodeSymbols_ok_bounds h
  rw [inputBytes_length] at hle
  have hilen := s.ilen.isLt
  refine ⟨hle, hle.trans ?_⟩
  rw [decodedLen, Config.obufSize]
  omega

/-- Settles O20: DEC emits the decoded bytes into the empty OBUF. -/
theorem decCommandsComplete : Obligations.DecCommandsComplete := by
  unfold Obligations.DecCommandsComplete
  intro p hp s bs hd
  obtain ⟨hlen, hfit⟩ := decoded_input_fits hd
  exact ⟨_, eq_decoderOf_of_mem hp ▸ exec_decoderOf_ok hd, outputIs_emit (beginCommand_obuf s) hfit, hlen,
    emit_beginCommand_frame bs s⟩

/-- Settles O21: DEC raises E_CORRUPT over the neutral result group and emits nothing. -/
theorem decCommandsReportCorruption : Obligations.DecCommandsReportCorruption := by
  unfold Obligations.DecCommandsReportCorruption
  intro p hp s off hd
  have hle : off ≤ s.ilen.toNat := (inputBytes_length s) ▸ decodeSymbols_error_le hd
  have hmax : ∀ o, Failure.corrupt off = .corrupt o → o ≤ Config.ilenMax := by
    rintro _ ⟨⟩
    exact (decodeSymbols_error_le hd).trans (input_length_le_ilenMax s)
  refine ⟨raise (.corrupt off) (beginCommand s), ?_, raise_failedWith rfl rfl hmax, hle,
    ⟨rfl, fun _ hj => absurd hj (Nat.not_lt_zero _)⟩, rfl, rfl, rfl, ⟨rfl, fun _ => rfl⟩, rfl, rfl, rfl, fun _ => rfl⟩
  rw [eq_decoderOf_of_mem hp, exec_decoderOf_error hd]

/-! ## ENC and then DEC (R134) -/

/-- A state that has an output as its input reads it (R25, R33, R91). -/
theorem inputBytes_of_output {t u : State} {bs : List Byte} (hout : OutputIs t bs) (hilen : u.ilen.toNat = t.olen.toNat)
    (hbuf : ∀ j, j < t.olen.toNat → u.ibuf.read j = t.obuf.read j) : inputBytes u = bs := by
  obtain ⟨holen, hread⟩ := hout
  refine inputBytes_of_written (hilen.trans holen) fun j hj => ?_
  rw [hbuf j (holen ▸ hj), hread j hj]

/-- ENC and then DEC with the same codec: DEC emits the input of ENC (R134). -/
theorem exec_decoderOf_of_encoded {c : Codec} {s t u : State} (ht : exec (encoderOf c) s = .next t)
    (hilen : u.ilen.toNat = t.olen.toNat) (hbuf : ∀ j, j < t.olen.toNat → u.ibuf.read j = t.obuf.read j) :
    exec (decoderOf c) u = .next (emit (inputBytes s) (beginCommand u)) := by
  rw [exec_encoderOf] at ht
  cases ht
  have hout := outputIs_emit (beginCommand_obuf s) (encodeBytes_input_fits c s)
  refine exec_decoderOf_ok ?_
  rw [inputBytes_of_output hout hilen hbuf]
  exact decodeInvertsEncode c (inputBytes s)

/-- Settles O27: the output of ENC is the input of DEC, and decoding inverts encoding. -/
theorem encThenDecRestoresInput : Obligations.EncThenDecRestoresInput := by
  unfold Obligations.EncThenDecRestoresInput
  intro p hp s t u _ ht hilen hbuf
  obtain ⟨c, rfl⟩ : ∃ c, p = (encoderOf c, decoderOf c) := by
    simp only [List.mem_cons, List.not_mem_nil, or_false] at hp
    rcases hp with rfl | rfl
    · exact ⟨.std, rfl⟩
    · exact ⟨.ndau, rfl⟩
  have hfit : (inputBytes s).length ≤ Config.obufSize :=
    (input_length_le_ilenMax s).trans (by decide)
  obtain ⟨holen, hread⟩ := outputIs_emit (beginCommand_obuf u) hfit
  rw [inputBytes_length] at holen hread
  refine ⟨_, exec_decoderOf_of_encoded ht hilen hbuf, rfl, holen, hread, fun j b hj hb => ?_⟩
  rw [hread j hj, inputBytes_getElem s hj, fetchByte_written _ hb]

end Sys2Proof.Machine

/-! SUPPORT. The CRC of `41_checksum16.md`: its shift register is linear and loses nothing, so the table engine and the
residue test agree with `crc16`, and a checksum tells two sequences apart that differ in one byte; and the commands that
are fully specified on the empty input. -/

namespace Sys2Proof.Machine

open Sys2Proof

/-! ## Shift steps (R160) -/

/-- One shift step as a shift and the feedback of the bit that leaves the register. -/
theorem crcShift_eq (x : Half) : crcShift x = x <<< 1 ^^^ (if x.msb then crcPoly else 0) := by
  unfold crcShift
  split
  · rfl
  · exact BitVec.xor_zero.symm

theorem feedback_xor (p : Half) (a b : Bool) :
    (if a ^^ b then p else 0) = (if a then p else 0) ^^^ (if b then p else 0) := by
  cases a with
  | false => simp
  | true => cases b <;> simp

/-- One shift step is linear over GF(2) (R160). -/
theorem crcShift_xor (x y : Half) : crcShift (x ^^^ y) = crcShift x ^^^ crcShift y := by
  simp only [crcShift_eq, BitVec.msb_xor, feedback_xor, BitVec.shiftLeft_xor_distrib]
  ac_rfl

/-- The lowest bit of the polynomial is set, so a bit that leaves the register leaves a trace: only 0 is shifted
to 0. -/
theorem eq_zero_of_crcShift_eq_zero {x : Half} (h : crcShift x = 0) : x = 0 := by
  unfold crcShift at h
  split at h
  next =>
    have hlowest := congrArg (BitVec.getLsbD · 0) h
    simp [crcPoly] at hlowest
  next hmsb =>
    rw [BitVec.msb_eq_decide, decide_eq_true_iff] at hmsb
    bv_omega

theorem crcShifts_xor (n : Nat) (x y : Half) : crcShifts n (x ^^^ y) = crcShifts n x ^^^ crcShifts n y := by
  induction n generalizing x y with
  | zero => rfl
  | succ n ih => rw [crcShifts, crcShift_xor, ih, crcShifts, crcShifts]

theorem crcShifts_add (m n : Nat) (x : Half) : crcShifts (m + n) x = crcShifts n (crcShifts m x) := by
  induction m generalizing x with
  | zero => rw [Nat.zero_add, crcShifts]
  | succ m ih => rw [Nat.succ_add, crcShifts, ih, crcShifts]

theorem crcShifts_zero (n : Nat) : crcShifts n 0 = 0 := by
  induction n with
  | zero => rfl
  | succ n ih => exact ih

theorem crcShifts_eq_zero_iff {n : Nat} {x : Half} : crcShifts n x = 0 ↔ x = 0 := by
  refine ⟨fun h => ?_, fun h => h ▸ crcShifts_zero n⟩
  induction n generalizing x with
  | zero => exact h
  | succ n ih => exact eq_zero_of_crcShift_eq_zero (ih h)

/-- Different registers stay different under shift steps. -/
theorem crcShifts_injective (n : Nat) : Function.Injective (crcShifts n) := fun x y h => by
  have hdiff : crcShifts n (x ^^^ y) = 0 := by rw [crcShifts_xor, h]; exact BitVec.xor_self
  exact BitVec.xor_eq_zero_iff.1 (crcShifts_eq_zero_iff.1 hdiff)

/-- While no set bit leaves the register, shift steps only shift. -/
theorem crcShifts_of_no_carry {n : Nat} {x : Half} (h : x.toNat * 2 ^ n < 2 ^ 16) : crcShifts n x = x <<< n := by
  induction n generalizing x with
  | zero => exact (BitVec.shiftLeft_zero x).symm
  | succ n ih =>
    rw [Nat.pow_succ', ← Nat.mul_assoc] at h
    have hlow : x.toNat * 2 < 2 ^ 16 := lt_of_le_of_lt (Nat.le_mul_of_pos_right _ (Nat.two_pow_pos n)) h
    have hmsb : x.msb = false := by
      rw [BitVec.msb_eq_decide, decide_eq_false_iff_not]
      omega
    have hshift : (x <<< 1).toNat = x.toNat * 2 := by
      rw [BitVec.toNat_shiftLeft, Nat.shiftLeft_eq, Nat.pow_one, Nat.mod_eq_of_lt hlow]
    rw [crcShifts, crcShift, hmsb, if_neg Bool.false_ne_true, ih (by rwa [hshift]), ← BitVec.shiftLeft_add,
      Nat.add_comm]

/-- Eight shift steps move the low byte to the top. -/
theorem crcShifts_low_byte (b : Byte) : crcShifts 8 (b.setWidth 16) = b.setWidth 16 <<< 8 :=
  crcShifts_of_no_carry (by bv_omega)

/-! ## A register as two bytes (R162) -/

theorem shifted_xor_eq_append (a b : Byte) : (a.setWidth 16 <<< 8) ^^^ b.setWidth 16 = a ++ b := by
  ext j hj
  grind

theorem highByte_append_lowByte (v : Half) : v.extractLsb' 8 8 ++ v.extractLsb' 0 8 = v := by
  rw [BitVec.extractLsb'_append_extractLsb'_eq_extractLsb' (x := v) (show 8 = 0 + 8 from rfl)]
  exact BitVec.extractLsb'_eq_self

theorem bytesOfHalf_append (a b : Byte) : bytesOfHalf (a ++ b) = [a, b] := by
  rw [bytesOfHalf, BitVec.extractLsb'_append_eq_left, BitVec.extractLsb'_append_eq_right]

theorem bytesOfHalf_injective : Function.Injective bytesOfHalf := fun v w h => by
  obtain ⟨hhigh, hlow⟩ : v.extractLsb' 8 8 = w.extractLsb' 8 8 ∧ v.extractLsb' 0 8 = w.extractLsb' 0 8 := by
    simpa [bytesOfHalf] using h
  rw [← highByte_append_lowByte v, hhigh, hlow, highByte_append_lowByte]

theorem bytesOfHalf_eq_shifted (v : Half) : bytesOfHalf v = [(v >>> 8).setWidth 8, v.setWidth 8] := by
  simp [bytesOfHalf, BitVec.setWidth_eq_extractLsb', BitVec.toNat_eq]

/-- Comparing the two bytes is comparing the 16-bit values (R166). -/
theorem bytes_agree_iff_eq (v w : Half) : v >>> 8 = w >>> 8 ∧ v.setWidth 8 = w.setWidth 8 ↔ v = w := by
  refine ⟨fun ⟨hhigh, hlow⟩ => ?_, fun h => h ▸ ⟨rfl, rfl⟩⟩
  bv_omega

/-! ## One byte, and a table engine (R160, R164) -/

theorem crcByte_injective_left (b : Byte) : Function.Injective (crcByte · b) := fun _ _ h =>
  (BitVec.xor_left_inj _).1 (crcShifts_injective 8 h)

theorem crcByte_injective_right (reg : Half) : Function.Injective (crcByte reg) := fun b b' h => by
  have hhigh : b.setWidth 16 <<< 8 = b'.setWidth 16 <<< 8 := (BitVec.xor_right_inj _).1 (crcShifts_injective 8 h)
  bv_omega

/-- The table engine takes one byte like the shift register: the high byte combined with the new one is the index, and
the low byte moves to the top (R164). -/
theorem crcTableByte_eq_crcByte (reg : Half) (b : Byte) : crcTableByte reg b = crcByte reg b := by
  have hsplit : reg ^^^ (b.setWidth 16 <<< 8) =
      (reg.extractLsb' 0 8).setWidth 16 ^^^ ((reg.extractLsb' 8 8 ^^^ b).setWidth 16 <<< 8) := by
    conv_lhs => rw [← highByte_append_lowByte reg, ← shifted_xor_eq_append]
    rw [BitVec.setWidth_xor, BitVec.shiftLeft_xor_distrib]
    ac_rfl
  have hlow : (reg.extractLsb' 0 8).setWidth 16 <<< 8 = reg <<< 8 := by
    ext j hj
    grind
  rw [crcByte, hsplit, crcShifts_xor, crcShifts_low_byte, hlow, crcTableByte, crcTable]

theorem crcTableRun_eq_crcRun (reg : Half) (bs : List Byte) : crcTableRun reg bs = crcRun reg bs := by
  induction bs generalizing reg with
  | nil => rfl
  | cons b bs ih => rw [crcTableRun, crcTableByte_eq_crcByte, ih, crcRun]

/-- Settles O12: the engines agree byte by byte. -/
theorem crcTableEngineAgrees : Obligations.CrcTableEngineAgrees := by
  unfold Obligations.CrcTableEngineAgrees
  exact ⟨crcTableRun_eq_crcRun crcInit, by decide, by decide, by decide, by decide, by decide⟩

/-! ## A sequence followed by two bytes (R167, R183) -/

theorem crcRun_append (reg : Half) (bs cs : List Byte) : crcRun reg (bs ++ cs) = crcRun (crcRun reg bs) cs := by
  induction bs generalizing reg with
  | nil => rfl
  | cons b bs ih => exact ih _

/-- Two bytes are sixteen shift steps of the register combined with them: the second byte could have entered below the
first. -/
theorem crcByte_crcByte (reg : Half) (a b : Byte) : crcByte (crcByte reg a) b = crcShifts 16 (reg ^^^ (a ++ b)) := by
  rw [crcByte, ← crcShifts_low_byte, crcByte, ← crcShifts_xor, ← crcShifts_add, BitVec.xor_assoc,
    shifted_xor_eq_append]

theorem checksum16_eq_iff (bs : List Byte) (a b : Byte) : checksum16 bs = [a, b] ↔ crc16 bs = a ++ b := by
  rw [checksum16, ← bytesOfHalf_append, bytesOfHalf_injective.eq_iff]

theorem check_eq_true_iff (bs e : List Byte) : check bs e = true ↔ checksum16 bs = e := decide_eq_true_iff

/-- The residue of a sequence followed by two bytes is zero exactly when they are its checksum (R167). -/
theorem crc16_append_eq_zero_iff (bs : List Byte) {e : List Byte} (he : e.length = 2) :
    crc16 (bs ++ e) = 0 ↔ checksum16 bs = e := by
  obtain ⟨a, b, rfl⟩ := List.length_eq_two.1 he
  have hrun : crc16 (bs ++ [a, b]) = crcShifts 16 (crc16 bs ^^^ (a ++ b)) := by
    rw [crc16, crcRun_append]
    exact crcByte_crcByte _ a b
  rw [hrun, checksum16_eq_iff, crcShifts_eq_zero_iff]
  exact BitVec.xor_eq_zero_iff

/-- The residue test of decoded bytes agrees with the comparison of their suffix (R183). -/
theorem residueOk_eq_suffixOk {d : List Byte} (hd : 2 ≤ d.length) : residueOk d = suffixOk d := by
  have hsuffix : (suffix d).length = 2 := by
    rw [suffix, List.length_drop]
    omega
  have hresidue := crc16_append_eq_zero_iff (payload d) hsuffix
  rw [payload, suffix, List.take_append_drop] at hresidue
  exact decide_eq_decide.2 hresidue

/-- Settles O13, by the residue of a sequence followed by two bytes. -/
theorem checksumResidue : Obligations.ChecksumResidue := by
  unfold Obligations.ChecksumResidue
  exact fun bs => ⟨(crc16_append_eq_zero_iff bs rfl).2 rfl,
    fun e he => (crc16_append_eq_zero_iff bs he).trans (check_eq_true_iff bs e).symm, residueOk_eq_suffixOk⟩

/-! ## One changed byte (R163) -/

theorem crcRun_injective (bs : List Byte) : Function.Injective (crcRun · bs) := by
  induction bs with
  | nil => exact fun _ _ h => h
  | cons b bs ih => exact fun _ _ h => crcByte_injective_left b (ih h)

/-- Of two sequences that differ in one byte the checksums differ: the byte takes the register to different values, and
the bytes behind it keep them apart. -/
theorem checksum16_injective_in_byte (pre post : List Byte) :
    Function.Injective fun b => checksum16 (pre ++ b :: post) := fun b b' h => by
  have hcrc : crc16 (pre ++ b :: post) = crc16 (pre ++ b' :: post) := bytesOfHalf_injective h
  rw [crc16, crc16, crcRun_append, crcRun_append] at hcrc
  exact crcByte_injective_right _ (crcRun_injective post hcrc)

/-- Settles O14: the checksum is injective in each byte. -/
theorem checksumDetectsOneByte : Obligations.ChecksumDetectsOneByte := by
  unfold Obligations.ChecksumDetectsOneByte
  intro pre post b b'
  refine ⟨(check_eq_true_iff _ _).2 rfl, fun hne => decide_eq_false fun h => hne ?_⟩
  exact (checksum16_injective_in_byte pre post h).symm

/-! ## CRC16 and CRCCHK (R165, R166) -/

/-- The checksum of an empty input (R161 (a)). -/
theorem crc16_nil : crc16 [] = 0x1D0F := rfl

/-- The checksum of the text 123456789 (R161 (c)). -/
theorem crc16_digits : crc16 [0x31, 0x32, 0x33, 0x34, 0x35, 0x36, 0x37, 0x38, 0x39] = 0xE5CC := by decide +kernel

theorem inputBytes_of_ilen_zero {s : State} (h : s.ilen = 0) : inputBytes s = [] :=
  List.eq_nil_of_length_eq_zero (by rw [inputBytes_length, h]; rfl)

/-- The state CRC16 leaves (R165). -/
def afterCrc16 (s : State) : State :=
  emit (checksum16 (inputBytes s)) (setCrc (crc16 (inputBytes s)) (beginCommand s))

/-- The state CRCCHK leaves (R166). -/
def afterCrcchk (s : State) : State :=
  setMatch (check (inputBytes s) (bytesOfHalf s.ckexp)) (setCrc (crc16 (inputBytes s)) (beginCommand s))

theorem exec_crc16 (s : State) : exec .crc16 s = .next (afterCrc16 s) := exec_eq_next _ s

theorem exec_crcchk (s : State) : exec .crcchk s = .next (afterCrcchk s) := exec_eq_next _ s

@[simp] theorem afterCrc16_crc (s : State) : (afterCrc16 s).crc = crc16 (inputBytes s) := rfl

@[simp] theorem afterCrcchk_crc (s : State) : (afterCrcchk s).crc = crc16 (inputBytes s) := rfl

theorem afterCrc16_output (s : State) : OutputIs (afterCrc16 s) (bytesOfHalf (afterCrc16 s).crc) :=
  outputIs_emit rfl (show 2 ≤ Config.obufSize by decide)

/-- A state with no byte emitted has the empty output (R33). -/
theorem outputIs_nil {t : State} (h : t.olen = 0) : OutputIs t [] :=
  ⟨congrArg BitVec.toNat h, fun _ hj => absurd hj (Nat.not_lt_zero _)⟩

/-- MATCH is the comparison of the 16-bit values (R166). -/
theorem afterCrcchk_matched (s : State) : (afterCrcchk s).matched = true ↔ (afterCrcchk s).crc = s.ckexp :=
  (check_eq_true_iff _ _).trans bytesOfHalf_injective.eq_iff

/-- Settles O10, by the state CRC16 leaves. -/
theorem crcSixteenCompletes : Obligations.CrcSixteenCompletes := by
  unfold Obligations.CrcSixteenCompletes
  refine ⟨rfl, fun s => ⟨afterCrc16 s, exec_crc16 s, rfl, ?output, ⟨rfl, rfl, rfl⟩, rfl, rfl, rfl,
    ⟨rfl, fun _ => rfl⟩, ⟨rfl, rfl, rfl, fun _ => rfl⟩, fun h => ?empty, fun h => ?digits⟩⟩
  case output => exact bytesOfHalf_eq_shifted _ ▸ afterCrc16_output s
  case empty => rw [afterCrc16_crc, inputBytes_of_ilen_zero h, crc16_nil]
  case digits => rw [afterCrc16_crc, h, crc16_digits]

/-- Settles O11, by the state CRCCHK leaves: MATCH is the comparison, and RESULT stays neutral either way. -/
theorem crcchkCompletes : Obligations.CrcchkCompletes := by
  unfold Obligations.CrcchkCompletes
  refine ⟨rfl, fun s => ⟨afterCrcchk s, exec_crcchk s, rfl, ?bytes, afterCrcchk_matched s, outputIs_nil rfl,
    ⟨rfl, rfl, rfl⟩, rfl, ⟨rfl, fun _ => rfl⟩, ⟨rfl, rfl, rfl, fun _ => rfl⟩, statusView_toNat _, fun h => ?empty,
    fun h => ?digits⟩⟩
  case bytes => rw [afterCrcchk_matched, bytes_agree_iff_eq]
  case empty => rw [afterCrcchk_matched, afterCrcchk_crc, inputBytes_of_ilen_zero h, crc16_nil, eq_comm]
  case digits => rw [afterCrcchk_matched, afterCrcchk_crc, h, crc16_digits, eq_comm]

/-! ## The commands on the empty input (R242) -/

/-- A candidate that fails before step 6 makes both validator commands record the failure alone (R184, R186). -/
theorem exec_validator_rejected {i : Instr} {s : State} {f : Failure} (hi : IsValidator i)
    (hd : decodeCandidate (inputBytes s) = .error f) : exec i s = .next (raise f (beginCommand s)) := by
  have hrun : runValidate (inputBytes s) (beginCommand s) = raise f (beginCommand s) := by rw [runValidate, hd]
  rw [exec_eq_next]
  rcases hi with rfl | rfl
  · rw [commandBody, hrun]
  · rw [commandBody, constructInto, hrun, raise_result, if_neg f.code_ne_zero]

section
variable {s : State} (h : s.ilen = 0)
include h

/-- With ILEN 0 no free value is drawn (R242). -/
theorem beginCommand_draws_of_ilen_zero : (beginCommand s).draws = s.draws := by
  rw [beginCommand_draws, drawsAfterInput_eq, h]; rfl

theorem exec_encoderOf_empty (c : Codec) : exec (encoderOf c) s = .next (emit [] (beginCommand s)) := by
  rw [exec_encoderOf, inputBytes_of_ilen_zero h, encodeBytes]

theorem exec_decoderOf_empty (c : Codec) : exec (decoderOf c) s = .next (emit [] (beginCommand s)) :=
  exec_decoderOf_ok (by rw [inputBytes_of_ilen_zero h]; cases c <;> rfl)

/-- ENC and DEC give an empty output from an empty input (R127, R128, R135, R136). -/
theorem exec_codec_empty {i : Instr} (hi : i ∈ [Instr.encStd, Instr.encNdau, Instr.decStd, Instr.decNdau]) :
    exec i s = .next (emit [] (beginCommand s)) := by
  simp only [List.mem_cons, List.not_mem_nil, or_false] at hi
  rcases hi with rfl | rfl | rfl | rfl
  · exact exec_encoderOf_empty h .std
  · exact exec_encoderOf_empty h .ndau
  · exact exec_decoderOf_empty h .std
  · exact exec_decoderOf_empty h .ndau

/-- An empty candidate does not begin with `nd` (R182 step 2). -/
theorem exec_validator_empty {i : Instr} (hi : IsValidator i) :
    exec i s = .next (raise .badPrefix (beginCommand s)) :=
  exec_validator_rejected hi (by rw [inputBytes_of_ilen_zero h]; rfl)

end

/-- Settles O42, by the state each command leaves on the empty input. -/
theorem commandsOnEmptyInput : Obligations.CommandsOnEmptyInput := by
  unfold Obligations.CommandsOnEmptyInput
  intro s h
  have hdraws := beginCommand_draws_of_ilen_zero h
  have hcrc : crc16 (inputBytes s) = 0x1D0F := by rw [inputBytes_of_ilen_zero h, crc16_nil]
  refine ⟨⟨_, exec_crc16 s, hcrc, ?output, hdraws⟩,
    ⟨_, exec_crcchk s, hcrc, ?matched, ⟨rfl, rfl, rfl⟩, outputIs_nil rfl, hdraws⟩,
    fun i hi => ⟨_, exec_codec_empty h hi, ⟨rfl, rfl, rfl⟩, outputIs_nil rfl, hdraws⟩,
    fun i hi => ⟨_, exec_validator_empty h (by simpa [IsValidator] using hi), raise_failedWith rfl rfl (by simp),
      ⟨rfl, fun _ => rfl⟩, hdraws⟩⟩
  case output =>
    have hout := afterCrc16_output s
    rwa [afterCrc16_crc, hcrc] at hout
  case matched => rw [afterCrcchk_matched, afterCrcchk_crc, hcrc, eq_comm]

end Sys2Proof.Machine

/-! SUPPORT. The Kinds and the validator: its first failure step by step, its case, and the lengths it can decode. -/

namespace Sys2Proof.Machine

open Sys2Proof

/-! ## Kinds (R180, R181) -/

/-- A tag parses to its Kind, and nothing else does (R180, R181). -/
theorem parseKind_eq_some_iff {b : Byte} {k : Kind} : parseKind b = some k ↔ kindByte k = b := by
  refine ⟨fun h => ?_, fun h => h ▸ parseKind_kindByte k⟩
  revert h
  fun_cases parseKind b with
  | case1 hb | case2 _ hb | case3 _ _ hb | case4 _ _ _ hb | case5 _ _ _ _ hb | case6 _ _ _ _ _ hb =>
    rintro ⟨⟩; exact hb.symm
  | case7 => exact nofun

theorem parseKind_eq_none_iff (b : Byte) : parseKind b = none ↔ ∀ k, kindByte k ≠ b := by
  rw [Option.eq_none_iff_forall_ne_some]
  exact forall_congr' fun k => not_congr parseKind_eq_some_iff

theorem mem_kindTags_iff (b : Byte) :
    b ∈ ([0x61, 0x6E, 0x65, 0x78, 0x62, 0x6D] : List Byte) ↔ ∃ k, kindByte k = b := by
  constructor
  · simp only [List.mem_cons, List.not_mem_nil, or_false]
    rintro (rfl | rfl | rfl | rfl | rfl | rfl)
    exacts [⟨.user, rfl⟩, ⟨.ndau, rfl⟩, ⟨.endowment, rfl⟩, ⟨.exchange, rfl⟩, ⟨.bpc, rfl⟩, ⟨.marketMaker, rfl⟩]
  · rintro ⟨k, rfl⟩
    cases k <;> decide

/-- Settles O31: the bytes that parse are the tags, and each parses to the Kind it is the tag of. -/
theorem kindTagsBijective : Obligations.KindTagsBijective := by
  unfold Obligations.KindTagsBijective
  refine ⟨parseKind_kindByte, fun b k => parseKind_eq_some_iff.1, fun b => ?_, by decide, parseKind_kindByte .user,
    parseKind_kindByte .ndau, parseKind_kindByte .endowment, parseKind_kindByte .exchange, parseKind_kindByte .bpc,
    parseKind_kindByte .marketMaker⟩
  rw [parseKind_eq_none_iff, mem_kindTags_iff, not_exists]

/-! ## The steps that decode a candidate (R182) -/

/-- The two bytes of step 2. -/
theorem hasPrefix_iff (bs : List Byte) : hasPrefix bs = true ↔ bs[0]? = some 0x6E ∧ bs[1]? = some 0x64 := by
  match bs with
  | [] | [_] => simp [hasPrefix]
  | b0 :: b1 :: rest => simp [hasPrefix]

theorem decodeCandidate_of_not_hasPrefix {s0 : List Byte} (hpre : hasPrefix (lowerAll s0) = false) :
    decodeCandidate s0 = .error .badPrefix := by
  simp only [decodeCandidate, hpre, if_true]

section
variable {s0 : List Byte} (hpre : hasPrefix (lowerAll s0) = true)
include hpre

theorem decodeCandidate_wrong_length (hlen : s0.length ≠ 48) : decodeCandidate s0 = .error .badLength := by
  simp [decodeCandidate, hpre, Config.addrSize, hlen]

variable (hlen : s0.length = 48)
include hlen

theorem decodeCandidate_unknown_kind (hkind : parseKind ((lowerAll s0).getD 2 0x00) = none) :
    decodeCandidate s0 = .error (.badKind ((lowerAll s0).getD 2 0x00)) := by
  simp only [decodeCandidate, hpre, lowerAll_length, hlen, Config.addrSize, hkind]
  rfl

variable {k : Kind} (hkind : parseKind ((lowerAll s0).getD 2 0x00) = some k)
include hkind

theorem decodeCandidate_corrupt {off : Nat} (hdec : decodeSymbols .ndau (lowerAll s0) = .error off) :
    decodeCandidate s0 = .error (.corrupt off) := by
  simp only [decodeCandidate, hpre, lowerAll_length, hlen, Config.addrSize, hkind, hdec]
  rfl

theorem decodeCandidate_decoded {d : List Byte} (hdec : decodeSymbols .ndau (lowerAll s0) = .ok d) :
    decodeCandidate s0 = .ok (k, d) := by
  simp only [decodeCandidate, hpre, lowerAll_length, hlen, Config.addrSize, hkind, hdec]
  rfl

end

/-! ## What the validator answers (R182) -/

theorem validate_rejected {s0 : List Byte} {f : Failure} (hd : decodeCandidate s0 = .error f) :
    validate s0 = .error f := by
  rw [validate, hd]

/-- Step 7 decides a candidate that decodes (R183). -/
theorem validate_decoded {s0 d : List Byte} {k : Kind} (hd : decodeCandidate s0 = .ok (k, d)) :
    validate s0 = if suffixOk d then .ok k else .error .badChecksum := by
  rw [validate, hd]

/-- A valid candidate decodes and passes step 7. -/
theorem exists_decoded_of_validate_ok {s0 : List Byte} {k : Kind} (h : validate s0 = .ok k) :
    ∃ d, decodeCandidate s0 = .ok (k, d) ∧ suffixOk d = true := by
  cases hd : decodeCandidate s0 with
  | error f => rw [validate_rejected hd] at h; cases h
  | ok p =>
    obtain ⟨k', d⟩ := p
    rw [validate_decoded hd] at h
    split at h
    next hs => cases h; exact ⟨d, rfl, hs⟩
    next => cases h

/-- A candidate that is not valid fails before step 6, or decodes and fails step 7. -/
theorem validate_error_cases {s0 : List Byte} {f : Failure} (h : validate s0 = .error f) :
    decodeCandidate s0 = .error f ∨
      (f = .badChecksum ∧ ∃ k d, decodeCandidate s0 = .ok (k, d) ∧ suffixOk d = false) := by
  cases hd : decodeCandidate s0 with
  | error g => rw [validate_rejected hd] at h; cases h; exact .inl rfl
  | ok p =>
    obtain ⟨k, d⟩ := p
    rw [validate_decoded hd] at h
    split at h
    next => cases h
    next hs => cases h; exact .inr ⟨rfl, k, d, rfl, Bool.eq_false_of_not_eq_true hs⟩

/-- Settles O32: each clause is the candidate's first failure among the steps that decode it, or what step 7 decides. -/
theorem validateFollowsStepOrder : Obligations.ValidateFollowsStepOrder := by
  unfold Obligations.ValidateFollowsStepOrder
  intro s0
  refine ⟨fun hpre => ?noPrefix, fun h0 h1 => ?_⟩
  case noPrefix =>
    rw [← hasPrefix_iff, Bool.not_eq_true] at hpre
    exact validate_rejected (decodeCandidate_of_not_hasPrefix hpre)
  have hpre : hasPrefix (lowerAll s0) = true := (hasPrefix_iff _).2 ⟨h0, h1⟩
  refine ⟨fun hlen => validate_rejected (decodeCandidate_wrong_length hpre hlen), fun hlen => ?_⟩
  have hbyte : (lowerAll s0)[2]? = some ((lowerAll s0).getD 2 0x00) := by
    simp [List.getD, lowerAll_length, hlen]
  refine ⟨_, hbyte, fun hkind => validate_rejected (decodeCandidate_unknown_kind hpre hlen hkind), fun k hkind =>
    ⟨fun off hdec => validate_rejected (decodeCandidate_corrupt hpre hlen hkind hdec), fun d hdec => ?_⟩⟩
  have hval := validate_decoded (decodeCandidate_decoded hpre hlen hkind hdec)
  exact ⟨fun hcheck => hval.trans (if_neg (Bool.not_eq_true _ ▸ hcheck)), fun hcheck => hval.trans (if_pos hcheck)⟩

/-- Settles O37: every step works on the lower-cased candidate. -/
theorem validateIgnoresCase : Obligations.ValidateIgnoresCase := by
  unfold Obligations.ValidateIgnoresCase
  intro s0
  rw [validate, validate, decodeCandidate_lowerAll]

/-! ## The lengths of a decoded address (R190) -/

theorem lower_eq_pad_iff (b : Byte) : lower b = pad ↔ b = pad := by
  unfold lower pad
  split <;> bv_omega

/-- Folding neither makes nor removes a pad (R120). -/
theorem pad_mem_foldInput (c : Codec) (bs : List Byte) : pad ∈ foldInput c bs ↔ pad ∈ bs := by
  cases c with
  | std => rfl
  | ndau => simp [foldInput, folds, lowerAll, lower_eq_pad_iff]

theorem eq_pad_of_terminates {b : Byte} {j remaining : Nat} (h : terminates b j remaining = true) : b = pad := by
  simp only [terminates, Bool.and_eq_true, beq_iff_eq] at h
  obtain ⟨⟨hpad, _⟩, _⟩ := h
  exact hpad

/-- A scan that succeeds gives five bytes for each quantum exactly if it met no pad: a pad closes the last quantum short
of five bytes, or is no symbol (R129, R132). -/
theorem scan_ok_full_iff {c : Codec} {n i : Nat} {gs : List Group5} {bs out : List Byte} (hgs : gs.length ≤ 7)
    (h : scan c n i gs bs = .ok out) : out.length = (gs.length + bs.length) / 8 * 5 ↔ pad ∉ bs := by
  induction bs generalizing i gs out with
  | nil =>
    rw [scan] at h
    split at h
    next h0 => cases h; simp [h0]
    next => cases h
  | cons b rest ih =>
    rw [scan] at h
    rw [List.length_cons, List.mem_cons, not_or]
    split at h
    next hterm =>
      obtain ⟨hrest, hout⟩ := closePadded_ok h
      have hlen : rest.length = 7 - gs.length := by rw [hrest, List.length_replicate]
      have hbytes : out.length = 5 * gs.length / 8 := by rw [hout, quantumBytes_length _ (by omega)]
      have hshort : out.length ≠ (gs.length + (rest.length + 1)) / 8 * 5 := by omega
      simp [hshort, eq_pad_of_terminates hterm]
    split at h
    next => cases h
    next v hv =>
      have hpad : pad ≠ b := by
        rintro rfl
        rw [lut_pad] at hv; cases hv
      rw [and_iff_right hpad]
      split at h
      next h7 =>
        split at h
        next => cases h
        next out' hrest =>
          cases h
          rw [← ih (gs := []) (Nat.zero_le 7) hrest, List.length_append, quantumBytes_length _ le_rfl, List.length_nil]
          omega
      next hopen =>
        have hnext : (gs ++ [v]).length = gs.length + 1 := by simp
        rw [← ih (by omega) h, hnext, Nat.add_right_comm, Nat.add_assoc]

/-- A decode reaches the bound of R124 exactly if its input has no pad. -/
theorem decodeSymbols_ok_full_iff {c : Codec} {s0 bs : List Byte} (h : decodeSymbols c s0 = .ok bs) :
    bs.length = decodedLen s0.length ↔ pad ∉ s0 := by
  have hfull := scan_ok_full_iff (gs := []) (Nat.zero_le 7) h
  rwa [foldInput_length, List.length_nil, Nat.zero_add, pad_mem_foldInput] at hfull

/-- Settles O36: 48 symbols are six quanta, so the bound is 30 bytes, and a padded quantum loses at most four. -/
theorem addressDecodesTo26To30 : Obligations.AddressDecodesTo26To30 := by
  unfold Obligations.AddressDecodesTo26To30
  intro s0 d hlen hdec
  have hbound : decodedLen s0.length = 30 := by rw [hlen]; rfl
  obtain ⟨_, hupper, hlower⟩ := decodeSymbols_ok_bounds hdec
  rw [hbound] at hupper hlower
  refine ⟨hbound ▸ decodeSymbols_ok_full_iff hdec, ?_⟩
  simp only [List.mem_cons, List.not_mem_nil, or_false]
  omega

end Sys2Proof.Machine

/-! SUPPORT. The commands VALIDATE and CONSTRUCT: the state each leaves for a valid candidate and for a failure. -/

namespace Sys2Proof.Machine

open Sys2Proof

/-! ## A candidate that is valid (R184, R186) -/

theorem runValidate_valid {bs d : List Byte} {k : Kind} (hd : decodeCandidate bs = .ok (k, d))
    (hs : suffixOk d = true) (s : State) : runValidate bs s = recordValid k d s := by
  rw [runValidate, hd]
  exact if_pos hs

section
variable {s : State} {k : Kind} {d : List Byte} (hd : decodeCandidate (inputBytes s) = .ok (k, d))
  (hs : suffixOk d = true)
include hd hs

theorem exec_validate_valid : exec .validate s = .next (recordValid k d (beginCommand s)) := by
  rw [exec_eq_next, commandBody, runValidate_valid hd hs]

theorem exec_construct_valid :
    exec .construct s = .next (holdAddress (lowerAll (inputBytes s)) (recordValid k d (beginCommand s))) := by
  rw [exec_eq_next, commandBody, constructInto, runValidate_valid hd hs, recordValid_result,
    if_pos (beginCommand_result s)]

end

/-- Settles O33, by the state VALIDATE leaves. -/
theorem validateCompletes : Obligations.ValidateCompletes := by
  unfold Obligations.ValidateCompletes
  intro s k hval
  obtain ⟨d, hd, hs⟩ := exists_decoded_of_validate_ok hval
  obtain ⟨_, _, _, hdec⟩ := decodeCandidate_ok _ _ _ hd
  exact ⟨_, d, exec_validate_valid hd hs, hdec, rfl, rfl, rfl, ⟨rfl, rfl, rfl⟩, outputIs_nil rfl, ⟨rfl, fun _ => rfl⟩,
    rfl, rfl, rfl, fun _ => rfl⟩

/-- `kind()` parses byte 2 of what `toString()` gives (R187). -/
theorem heldKind_of_heldAddress {t : State} {bs : List Byte} (h : heldAddress t = some bs) :
    heldKind t = parseKind (bs.getD 2 0x00) := by
  rw [heldKind, h]

/-- Settles O34, by the state CONSTRUCT leaves: 48 bytes are written to ADDR, and byte 2 is the tag of the Kind. -/
theorem constructCompletes : Obligations.ConstructCompletes := by
  unfold Obligations.ConstructCompletes
  intro s k hval
  obtain ⟨d, hd, hs⟩ := exists_decoded_of_validate_ok hval
  obtain ⟨_, hlen, hkind, hdec⟩ := decodeCandidate_ok _ _ _ hd
  have hlen48 : (lowerAll (inputBytes s)).length = 48 := (lowerAll_length _).trans hlen
  have hheld : heldAddress (holdAddress (lowerAll (inputBytes s)) (recordValid k d (beginCommand s))) =
      some (lowerAll (inputBytes s)) := heldAddress_of_writeRun rfl rfl hlen48
  refine ⟨_, d, exec_construct_valid hd hs, hdec, rfl, rfl, rfl, ⟨rfl, rfl, rfl⟩, outputIs_nil rfl, rfl,
    fun j hj => ?below, fun j hj => ?beyond, hheld, (heldKind_of_heldAddress hheld).trans hkind, rfl, rfl, rfl,
    fun _ => rfl⟩
  case below =>
    rw [holdAddress_addr, Memory.read_writeRun, if_pos (by omega), Nat.sub_zero]
  case beyond =>
    rw [holdAddress_addr, Memory.read_writeRun, if_neg (by omega)]
    rfl

/-! ## A candidate that is not (R184, R186, R211, R212) -/

/-- VALIDATE and CONSTRUCT end alike when the steps they share end with a failure (R186). -/
theorem exec_validator_failed {i : Instr} {s u : State} {f : Failure} (hi : IsValidator i)
    (hrun : runValidate (inputBytes s) (beginCommand s) = raise f u) : exec i s = .next (raise f u) := by
  rw [exec_eq_next]
  rcases hi with rfl | rfl
  · rw [commandBody, hrun]
  · rw [commandBody, constructInto, hrun, raise_result, if_neg f.code_ne_zero]

theorem exec_validator_mismatched {i : Instr} {s : State} {k : Kind} {d : List Byte} (hi : IsValidator i)
    (hd : decodeCandidate (inputBytes s) = .ok (k, d)) (hs : suffixOk d = false) :
    exec i s = .next (raise .badChecksum (setCrc (crc16 (payload d)) (beginCommand s))) :=
  exec_validator_failed hi (by simp [runValidate, hd, hs])

/-- The offset a candidate's corruption is reported at fits ERROFF (R44 (c)). -/
theorem decodeCandidate_offset_le {s : State} {f : Failure} (hd : decodeCandidate (inputBytes s) = .error f) :
    ∀ off, f = .corrupt off → off ≤ Config.ilenMax := by
  rintro off rfl
  rcases decodeCandidate_error _ _ hd with hf | hf | ⟨_, hf⟩ | ⟨_, hf, hdec⟩ <;> cases hf
  have hle := decodeSymbols_error_le hdec
  rw [lowerAll_length] at hle
  exact hle.trans (input_length_le_ilenMax s)

/-- Only step 7 fails with the checksum's code (R182). -/
theorem decodeCandidate_error_ne_badChecksum {s0 : List Byte} {f : Failure} (hd : decodeCandidate s0 = .error f) :
    f ≠ .badChecksum := by
  rcases decodeCandidate_error _ _ hd with rfl | rfl | ⟨_, rfl⟩ | ⟨_, rfl, _⟩ <;> exact nofun

/-- What a failed validation leaves, `v` being the checksum in CRC: the failure in a result group otherwise neutral, no
output, and everything else as the command found it (R93, R211, R212). -/
theorem raise_beginCommand_frame {f : Failure} (hoff : ∀ off, f = .corrupt off → off ≤ Config.ilenMax) (v : Half)
    (s : State) :
    let t := raise f (setCrc v (beginCommand s))
    FailedWith t f ∧ t.kind = 0x00 ∧ t.matched = false ∧ OutputIs t [] ∧ t.crc = v ∧ AddressSlotKept s t ∧
      OperandsKept s t := by
  refine ⟨raise_failedWith rfl rfl hoff, ?_⟩
  cases f with
  | badPrefix | badLength | badKind | corrupt | badChecksum | illegalCommand =>
    exact ⟨rfl, rfl, outputIs_nil rfl, rfl, ⟨rfl, fun _ => rfl⟩, rfl, rfl, rfl, fun _ => rfl⟩

/-- Settles O35: a failure before step 6 leaves CRC, a failure of step 7 comes after it was written. -/
theorem validatorFailuresRecorded : Obligations.ValidatorFailuresRecorded := by
  unfold Obligations.ValidatorFailuresRecorded
  intro i hi s f hval
  have hvalidator : IsValidator i := by simpa [IsValidator] using hi
  rcases validate_error_cases hval with hd | ⟨rfl, k, d, hd, hs⟩
  · have hne := decodeCandidate_error_ne_badChecksum hd
    obtain ⟨hfail, hkind, hmatched, hout, hcrc, hkept⟩ :=
      raise_beginCommand_frame (decodeCandidate_offset_le hd) s.crc s
    exact ⟨_, exec_validator_rejected hvalidator hd, hfail, hkind, hmatched, hout, fun _ => hcrc,
      fun h => absurd h hne, hkept⟩
  · obtain ⟨_, _, _, hdec⟩ := decodeCandidate_ok _ _ _ hd
    obtain ⟨hfail, hkind, hmatched, hout, hcrc, hkept⟩ :=
      raise_beginCommand_frame (f := .badChecksum) nofun (crc16 (payload d)) s
    exact ⟨_, exec_validator_mismatched hvalidator hd hs, hfail, hkind, hmatched, hout, fun h => absurd rfl h,
      fun _ => ⟨d, hdec, hcrc⟩, hkept⟩

/-! ## Constructing again (R189) -/

/-- A CONSTRUCT that ends with RESULT 0 had a valid candidate (R186). -/
theorem exists_validate_ok_of_construct {s t : State} (h : exec .construct s = .next t) (h0 : t.result = 0) :
    ∃ k, validate (inputBytes s) = .ok k := by
  rcases (exec_outcome h).address with ⟨_, _, hne⟩ | ⟨_, _, _, _, k, d, hd, hs⟩
  · exact absurd h0 (hne rfl)
  · exact ⟨k, (validate_decoded hd).trans (if_pos hs)⟩

/-- Settles O38: the held address is the candidate lower-cased, so it validates to the same Kind, and the 48 bytes
written again are those ADDR holds. -/
theorem constructAgainKeepsAddress : Obligations.ConstructAgainKeepsAddress := by
  unfold Obligations.ConstructAgainKeepsAddress
  intro s t u ht h0 haddr hav hinput
  obtain ⟨k, hval⟩ := exists_validate_ok_of_construct ht h0
  obtain ⟨t', _, ht', _, hkind, _, _, _, _, havalid, hbelow, _, hheld, _⟩ := constructCompletes s k hval
  cases ht.symm.trans ht'
  have hagain : inputBytes u = lowerAll (inputBytes s) := Option.some.inj (hinput.symm.trans hheld)
  have hvalu : validate (inputBytes u) = .ok k := by rw [hagain, ← validateIgnoresCase, hval]
  obtain ⟨v, _, hv, _, hkindv, _, _, ⟨hresult, _⟩, _, havalidv, hbelowv, hbeyondv, _⟩ := constructCompletes u k hvalu
  refine ⟨hheld, v, hv, hresult, hkindv.trans hkind.symm, ?avalid, fun j => ?addr⟩
  case avalid => rw [havalidv, hav, havalid]
  case addr =>
    by_cases hj : j < 48
    · rw [hbelowv j hj, hagain, lowerAll_lowerAll, ← hbelow j hj, haddr]
    · exact hbeyondv j (Nat.le_of_not_lt hj)

end Sys2Proof.Machine

/-! SUPPORT. How commands and steps end: the result codes of each command, a next state for every transaction, and the
results that stay. -/

namespace Sys2Proof.Machine

open Sys2Proof

/-! ## The result codes of a command (R214) -/

/-- The values of RESULT a command can end with: the rows of R214, and 0 for completion. -/
def resultCodes : Instr → List (BitVec 4)
  | .crc16 | .crcchk | .encStd | .encNdau => [0]
  | .decStd | .decNdau => [0, 4]
  | .validate | .construct => [0, 1, 2, 3, 4, 5]

theorem resultCodes_encoderOf (c : Codec) : resultCodes (encoderOf c) = [0] := by cases c <;> rfl

theorem resultCodes_decoderOf (c : Codec) : resultCodes (decoderOf c) = [0, 4] := by cases c <;> rfl

theorem resultCodes_of_validator {i : Instr} (hi : IsValidator i) : resultCodes i = [0, 1, 2, 3, 4, 5] := by
  rcases hi with rfl | rfl <;> rfl

/-- Completion is a possible end of every command. -/
theorem zero_mem_resultCodes (i : Instr) : 0 ∈ resultCodes i := by cases i <;> simp [resultCodes]

/-- The steps that decode a candidate fail with one of the codes 1 to 4 (R182, R211). -/
theorem code_mem_of_decodeCandidate_error {s0 : List Byte} {f : Failure} (hd : decodeCandidate s0 = .error f) :
    f.code ∈ ([1, 2, 3, 4] : List (BitVec 4)) := by
  rcases decodeCandidate_error s0 f hd with rfl | rfl | ⟨_, rfl⟩ | ⟨_, rfl, _⟩ <;> simp [Failure.code]

/-- A command that raises nothing leaves the RESULT it began with; one that raises leaves a code of its row. -/
theorem BodyOutcome.result_mem {i : Instr} {bs e : List Byte} {s u : State} (h : BodyOutcome i bs e s u)
    (h0 : s.result = 0) : u.result ∈ resultCodes i := by
  cases h with
  | checksummed | compared | encoded | decoded | validated | constructed => simpa [h0] using zero_mem_resultCodes i
  | corrupt c hi => simp [hi, resultCodes_decoderOf, Failure.code]
  | rejected hi f hd =>
    rw [raise_result, resultCodes_of_validator hi]
    have hcode := code_mem_of_decodeCandidate_error hd
    simp only [List.mem_cons, List.not_mem_nil, or_false] at hcode ⊢
    tauto
  | mismatched hi => simp [resultCodes_of_validator hi, Failure.code]

/-- Settles O39, by the outcomes of a command, which begins with RESULT 0. -/
theorem resultCodesByCommand : Obligations.ResultCodesByCommand := by
  unfold Obligations.ResultCodesByCommand
  intro i s
  have h := exec_eq_next i s
  have hmem := (exec_outcome h).result_mem (beginCommand_result s)
  refine ⟨_, h, ?_⟩
  cases i with
  | crc16 | crcchk | decStd | decNdau | encStd | encNdau | validate | construct => exact hmem

/-! ## Every step answers (R210, R245) -/

/-- A write of CMD answers a next state: a command does, and an illegal word is recorded (R93, R94). -/
theorem exists_startCommand_next (w : Half) (s : State) : ∃ t, startCommand w s = .next t := by
  rcases startCommand_cases w s with ⟨i, _, h⟩ | ⟨_, _, h⟩
  · exact ⟨_, h.trans (exec_eq_next i _)⟩
  · exact ⟨_, h⟩

theorem exists_runTransaction_next (tx : HostTx) (s : State) : ∃ t, runTransaction tx s = .next t := by
  cases tx with
  | writeReg r v =>
    rw [runTransaction]
    by_cases hr : r = 0
    · rw [hr, hostWriteReg_cmd]
      exact exists_startCommand_next v s
    · exact ⟨_, hostWriteReg_other r v s hr⟩
  | reset | readReg | writeIbuf | readIbuf | readObuf | readAddr => exact ⟨_, rfl⟩

theorem exists_step_next (s : State) : ∃ t, step s = .next t := by
  cases hp : s.pending with
  | nil => exact ⟨s, step_idle s hp⟩
  | cons tx rest =>
    rw [step_transaction s tx rest hp]
    exact exists_runTransaction_next tx _

/-- A step takes the oldest transaction off the list, and a command touches none of those after it (log entry 3). -/
theorem StepEffect.pending {s u : State} (h : StepEffect s u) : u.pending = s.pending.tail := by
  cases h with
  | idle hp => rw [hp]; rfl
  | command w rest i u hp hd hu =>
    obtain ⟨_, _, _, _, hpending, _⟩ := exec_kept hu
    rw [hpending, hp]; rfl
  | reset rest hp | illegal _ rest _ hp | registerWrite _ _ rest _ _ hp | bufferWrite _ _ rest hp
  | read _ rest _ _ hp => rw [hp]; rfl

/-- Settles O43: every transaction answers, and the effects of a step say what is left of the list. -/
theorem everyStepAnswersNext : Obligations.EveryStepAnswersNext := by
  unfold Obligations.EveryStepAnswersNext
  intro s
  obtain ⟨t, h⟩ := exists_step_next s
  refine ⟨t, h, fun hp => ?_, (step_effect h).pending⟩
  cases h.symm.trans (step_idle s hp)
  rfl

/-! ## The results stay (R218, R246) -/

theorem resultsKept_refl (s : State) : ResultsKept s s :=
  ⟨⟨rfl, fun _ => rfl⟩, rfl, rfl, rfl, rfl, rfl, rfl, rfl, fun _ => rfl⟩

/-- Settles O41, by the cases of a step: only a reset and a write of CMD, legal or not, reach the results or CMD. -/
theorem resultsStayUntilNextCommand : Obligations.ResultsStayUntilNextCommand := by
  unfold Obligations.ResultsStayUntilNextCommand
  intro s t h hreset hcmd
  cases step_effect h with
  | reset rest hp => simp [hp] at hreset
  | command w rest _ _ hp | illegal w rest _ hp => simp [hp] at hcmd
  | idle | registerWrite | bufferWrite | read => exact ⟨resultsKept_refl s, rfl⟩

end Sys2Proof.Machine
